-- ==== Sys2Proof/Word.lean ====
section
/-! DEFINITION. The word types of the APA-T5 SDP (spec/00_scope.md R6, R7): bytes of the buffers, 16-bit samples and
lanes, 32-bit registers and packed words. -/

namespace Sys2Proof

/-- One byte of IBUF or OBUF. -/
abbrev Byte := BitVec 8

/-- A 16-bit pattern: a sample (SAMPLE_BITS, R6) or one lane of a packed word (R183). -/
abbrev Half := BitVec 16

/-- A 32-bit value: a register (REG_BITS, R7), the command word (R90) or a packed word (WORD_BITS, R6). -/
abbrev Word := BitVec 32

end Sys2Proof
end

