-- ==== Sys2Proof/Syntax.lean ====
section
/-! DEFINITION. The instructions of the block: one constructor per row of spec/opcode_table.json
(spec/30_encoding.md R99). No command word has an operand field (R94): an operation's operands are the latched
descriptor and the payload in IBUF. -/

namespace Sys2Proof

/-- The six commands of the opcode map R99. -/
inductive Instr where
  /-- MONO.LEFT: routes the left channel (41_channel_select.md R152). -/
  | monoLeft
  /-- MONO.RIGHT: routes the right channel (R153). -/
  | monoRight
  /-- MONO.SUM: the sum-average of the two channels (R154). -/
  | monoSum
  /-- MONO.DIFF: the difference-average of the two channels (R155). -/
  | monoDiff
  /-- PACK: stereo frames to sum/difference words (42_sumdiff_pack.md R180). -/
  | pack
  /-- UNPACK: sum/difference words to stereo frames (R190). -/
  | unpack
deriving DecidableEq, Repr

end Sys2Proof
end

