-- ==== Sys2Proof/WellFormed.lean ====
section
/-! DEFINITION. The commands a latched command word can name, and which of them are well formed.

The decoder of spec/30_encoding.md R101 answers for every command word: one of the six instructions, or one of the two
illegal classes of R100, which carry the field value that is illegal. A command of an illegal class is well formed when
that value is indeed outside the legal ones; an instruction has no operand field that could be ill formed (R94). -/

namespace Sys2Proof

/-- What a command word decodes to (R101). -/
inductive Command where
  /-- A row of the opcode map R99. -/
  | legal (i : Instr)
  /-- `MONO_INVALID(mode)`: OP = 0 with MODE in 4 to 255 (41_channel_select.md R156). -/
  | monoInvalid (mode : BitVec 8)
  /-- `ILLEGAL(op)`: OP in 3 to 15 (60_exceptions.md R225). -/
  | illegal (op : BitVec 4)
deriving DecidableEq, Repr

/-- Every instruction is well formed: it has no operands (R94). -/
def Instr.wf : Instr → Bool
  | .monoLeft => true
  | .monoRight => true
  | .monoSum => true
  | .monoDiff => true
  | .pack => true
  | .unpack => true

/-- A command of an illegal class holds a value of that class: modes 4 to 255 (R93), ops 3 to 15 (R92). -/
def Command.wf : Command → Bool
  | .legal i => i.wf
  | .monoInvalid mode => decide (3#8 < mode)
  | .illegal op => decide (2#4 < op)

end Sys2Proof
end

