-- ==== Sys2Proof/Decode.lean ====
section
/-! DEFINITION. The command word's encoding (spec/30_encoding.md R90 to R101): its fields, the decoder, which is total
on all 2^32 words, and the encoder. -/

namespace Sys2Proof

/-- `CMD.OP`, bits 3:0 of a command word (R90). -/
def opField (w : Word) : BitVec 4 := w.extractLsb' 0 4

/-- `CMD.MODE`, bits 15:8 of a command word (R90). -/
def modeField (w : Word) : BitVec 8 := w.extractLsb' 8 8

/-- The decoder R101 on the two fields, which is all it reads: the reserved bits are not stored (R91). The engine
decodes from LAT.op and LAT.mode. -/
def decodeFields (op : BitVec 4) (mode : BitVec 8) : Command :=
  if op = 0#4 then
    if mode = 0#8 then .legal .monoLeft
    else if mode = 1#8 then .legal .monoRight
    else if mode = 2#8 then .legal .monoSum
    else if mode = 3#8 then .legal .monoDiff
    else .monoInvalid mode
  else if op = 1#4 then .legal .pack
  else if op = 2#4 then .legal .unpack
  else .illegal op

/-- The decoder on a whole command word (R101). -/
def decodeWord (w : Word) : Command := decodeFields (opField w) (modeField w)

/-- The 32-bit command word whose low `nbits` bits are those of `w`, every bit above being 0. -/
def tableWord (nbits w : Nat) : Word := BitVec.ofNat 32 (w % 2 ^ nbits)

/-- The instruction the decoder reads from a word numbered as spec/opcode_table.json numbers it; none where the word
is of an illegal class (R100). -/
def decodeTableWord (nbits w : Nat) : Option Instr :=
  match decodeWord (tableWord nbits w) with
  | .legal i => some i
  | .monoInvalid _ => none
  | .illegal _ => none

/-- The match value of the instruction's row in R99, which is also the word its mnemonic stands for (R102). -/
def encode : Instr → Word
  | .monoLeft => 0x00000000#32
  | .monoRight => 0x00000100#32
  | .monoSum => 0x00000200#32
  | .monoDiff => 0x00000300#32
  | .pack => 0x00000001#32
  | .unpack => 0x00000002#32

/-- The mask of the instruction's row in R99: the bits its decoding depends on. -/
def encodingMask : Instr → Word
  | .monoLeft => 0x0000FF0F#32
  | .monoRight => 0x0000FF0F#32
  | .monoSum => 0x0000FF0F#32
  | .monoDiff => 0x0000FF0F#32
  | .pack => 0x0000000F#32
  | .unpack => 0x0000000F#32

/-- A command's word: an instruction's match value, `MONO #m` as `m << 8` (R102), or the illegal OP alone. -/
def encodeCommand : Command → Word
  | .legal i => encode i
  | .monoInvalid mode => 0#16 ++ mode ++ 0#8
  | .illegal op => 0#28 ++ op

end Sys2Proof
end

