-- ==== Sys2Proof/Config.lean ====
section
/-! DEFINITION. What an implementation fixes (the OPEN parameters of spec/92_eei_decisions.md) and the free values the
spec leaves open. The constants declared `opaque` have no body: nothing can be proved of their values. -/

namespace Sys2Proof

/-- The rounding of a halving (92 D1): FLOOR, this hardware's, or TRUNC, the alternative reading of the source. -/
inductive DivPolicy where
  /-- Toward minus infinity: `fdiv2` of spec/00_scope.md R9. -/
  | floor
  /-- Toward zero: only for claims about the alternative reading (D1). -/
  | trunc
deriving DecidableEq, Repr

/-- The hardware's DIV_POLICY is FLOOR (R7, R9, 92 D1; log 14). -/
def Config.divPolicy : DivPolicy := .floor

/-- Decides BUF_BYTES among the sizes the spec allows; nothing is known of it (log 2). -/
opaque Config.bufSizeChoice : Nat

/-- BUF_BYTES (R7, 92 D10): a multiple of 4 from 4 to 2^32 - 4, and nothing else is known of it. State.reset starts
with this size; every other state carries its own (log 2). -/
def Config.bufBytes : Nat := 4 * (Config.bufSizeChoice % (2 ^ 30 - 1) + 1)

/-- The sizes R7 allows for a buffer. -/
abbrev Config.LegalBufBytes (n : Nat) : Prop := n % 4 = 0 ∧ 4 ≤ n ∧ n ≤ 2 ^ 32 - 4

/-- DESIGN CHOICE (free value, log 6). The value that the `k`-th read of OUT_* or OBUF made while BUSY = 1 returns
(spec/20_memory.md R71 item 3: any value). -/
opaque Config.busyRead : Nat → Word

/-- DESIGN CHOICE (free value, log 20). What the host reads in OUT_* or ERR_* at `offset` after the operation of the
`start`-th accepted START has completed and before it has seen DONE = 1 (spec/70_reset_and_hazards.md R253): unspecified,
and the same at every such read (spec/20_memory.md R70). -/
opaque Config.unseenReg : (start : Nat) → (offset : Nat) → Word

/-- DESIGN CHOICE (free value, log 20). The byte the host reads at an OBUF address in that same time (R253, R70). -/
opaque Config.unseenObuf : (start : Nat) → (address : Nat) → Byte

/-- DESIGN CHOICE (free value, log 5). What the host reads at an IBUF address that nothing has written since the
`epoch`-th reset: its contents are unspecified (spec/70_reset_and_hazards.md R251). -/
opaque Config.unwrittenIbuf : (epoch : Nat) → (address : Nat) → Byte

/-- DESIGN CHOICE (free value, log 21). What the host reads, after the `epoch`-th reset, at an OBUF address that the
operation interrupted by that reset may have written: any value (spec/70_reset_and_hazards.md R250,
spec/93_implementation_defined.md). -/
opaque Config.abandonedObuf : (epoch : Nat) → (address : Nat) → Byte

/-- The cycles of LATENCY beyond the first; nothing is known of them (log 15). -/
opaque Config.latencyBeyondOne : (op : BitVec 4) → (frames : Nat) → Nat

/-- LATENCY(op, n), OPEN and at least 1 (spec/70_reset_and_hazards.md R257). No rule depends on it, and nothing of the
model reads it: the model has no time (log 15). -/
def Config.latency (op : BitVec 4) (frames : Nat) : Nat := Config.latencyBeyondOne op frames + 1

/-- REGS_BASE, OPEN; no rule depends on it (spec/20_memory.md R69; log 15). -/
opaque Config.regsBase : Nat

/-- IBUF_BASE, OPEN; no rule depends on it (R69; log 15). -/
opaque Config.ibufBase : Nat

/-- OBUF_BASE, OPEN; no rule depends on it (R69; log 15). -/
opaque Config.obufBase : Nat

end Sys2Proof
end

