-- ==== Sys2Proof/Machine/State.lean ====
section
/-! DEFINITION. The state of the block (spec/10_state.md) as plain data, the host's accesses, whose turn it is, the
reasons a step can stop, and the state after reset (spec/70_reset_and_hazards.md R251). -/

namespace Sys2Proof.Machine

/-- A buffer's written bytes: (address, byte) pairs with strictly rising addresses. A byte's written bit
(spec/10_state.md R38) is 1 exactly when the list has an entry at its address; an unlisted address has no value
(log 4). -/
abbrev Memory := List Host.Cell

/-- Are the addresses of `m` strictly rising, all of them at or above `lo`? -/
def Memory.wfFrom : Nat → Memory → Bool
  | _, [] => true
  | lo, c :: m => decide (lo ≤ c.1) && Memory.wfFrom (c.1 + 1) m

/-- The one canonical form of a memory: strictly rising addresses. No entry equals what an unlisted address reads as,
since an unlisted address has no value. -/
def Memory.wf (m : Memory) : Bool := Memory.wfFrom 0 m

/-- The operation latches LAT.* of R36, which the running operation reads in place of the live registers. -/
structure Latches where
  op : BitVec 4
  mode : BitVec 8
  ch : Half
  bits : Half
  rate : Word
  len : Word
deriving DecidableEq, Repr

/-- The two byte-addressed spaces of spec/20_memory.md R60. -/
inductive Buffer where
  /-- The input buffer: the host writes it, the engine reads it. -/
  | ibuf
  /-- The output buffer: the engine writes it, the host reads it. -/
  | obuf
deriving DecidableEq, Repr

/-- One access of the host (spec/40_control.md §1). Offsets and widths are in bytes; a write carries a 32-bit value, of
which a buffer write stores the low `n` bytes. -/
inductive HostOp where
  /-- `RD off` (R120), with the width of the bus access. -/
  | rd (off width : Nat)
  /-- `WR off, v` (R121), with the width of the bus access. -/
  | wr (off width : Nat) (v : Word)
  /-- `RDB S, a, n` (R123). -/
  | rdb (b : Buffer) (a n : Nat)
  /-- `WRB S, a, n, v` (R123). -/
  | wrb (b : Buffer) (a n : Nat) (v : Word)
  /-- `WAIT` (R129): read STATUS until bit 1 is 1. -/
  | wait
deriving DecidableEq, Repr

/-- Who moves in one step (log 1). -/
inductive Turn where
  /-- The host makes its next access, if it has one. -/
  | host
  /-- The engine completes its operation, if one is running (R124). -/
  | engine
  /-- The reset input is asserted (spec/70_reset_and_hazards.md R250). -/
  | assertReset
  /-- The reset input is released (R250). -/
  | releaseReset
deriving DecidableEq, Repr

/-- The whole machine. -/
structure State where
  /-- CMD.OP (R24). -/
  cmdOp : BitVec 4
  /-- CMD.MODE (R24). -/
  cmdMode : BitVec 8
  /-- IN_CHANNELS.CHANNELS (R25). -/
  inChannels : Half
  /-- IN_BITS.BITS (R26). -/
  inBits : Half
  /-- IN_RATE (R27). -/
  inRate : Word
  /-- IN_LEN (R28). -/
  inLen : Word
  /-- STATUS.BUSY (R29). -/
  statusBusy : Bool
  /-- STATUS.DONE (R29). -/
  statusDone : Bool
  /-- STATUS.ERR (R29). -/
  statusErr : BitVec 4
  /-- ERR_FOUND (R30). -/
  errFound : Word
  /-- ERR_EXPECTED (R31). -/
  errExpected : Word
  /-- OUT_CHANNELS, bits 15:0 (R32). -/
  outChannels : Half
  /-- OUT_BITS, bits 15:0 (R33). -/
  outBits : Half
  /-- OUT_RATE (R34). -/
  outRate : Word
  /-- OUT_LEN (R35). -/
  outLen : Word
  /-- LAT.* (R36). -/
  lat : Latches
  /-- IBUF with its written bits (R38, R60). -/
  ibuf : Memory
  /-- OBUF with its written bits (R38, R60). -/
  obuf : Memory
  /-- How many bytes of OBUF, from offset 0, an operation that the last reset interrupted may have written: their values
  are unspecified (spec/70_reset_and_hazards.md R250; log 21). -/
  abandonedLen : Nat
  /-- Is the reset input asserted (R250)? -/
  inReset : Bool
  /-- BUF_BYTES, the size of each buffer, which no step changes (R7; log 2). -/
  bufBytes : Nat
  /-- The model's own: an accepted START whose DONE = 1 the host has not yet seen, so that the engine still owns the
  buffers and the result registers (spec/20_memory.md R72, spec/70_reset_and_hazards.md R253, R254; log 7). -/
  doneUnseen : Bool
  /-- The model's own: the host's accesses not yet made, in program order (log 1). -/
  hostOps : List HostOp
  /-- The model's own: who moves next; with nothing scheduled a running operation completes first (log 1). -/
  schedule : List Turn
  /-- The model's own: what the host's reads have returned, oldest first (log 12). -/
  reads : List Word
  /-- The model's own: how many STARTs have been accepted, which tells operations apart (log 20). -/
  starts : Nat
  /-- The model's own: how many unspecified values have been drawn while BUSY = 1 (R71 item 3; log 6). -/
  draws : Nat
  /-- The model's own: how many times reset has been released (log 5). -/
  epoch : Nat
deriving DecidableEq, Repr

/-- Why the machine stops: the model faults the spec names. -/
inductive Fault where
  /-- Raised by the engine when a frame holds an IBUF byte the host never wrote since reset (R38, R66). Safe: the chip
  goes on with some unspecified value. -/
  | unwrittenInput
  /-- Raised by a host read of an OBUF byte that the engine never wrote since reset (R38, R123) and that no operation
  interrupted by that reset may have written (R250). Safe, for the same reason. -/
  | unwrittenOutput
  /-- Raised by a host write to IBUF between an accepted START and the host's sight of DONE = 1 (R72, R254). Safe: the
  chip goes on with unspecified output bytes. -/
  | bufferHazard
deriving DecidableEq, Repr

/-- Why a step has no meaning. -/
inductive Refusal where
  /-- Raised by `exec` for an instruction that has no meaning yet; no arm raises it. Safe. -/
  | notModelled (mnemonic : String)
  /-- Raised by a host access that gets a bus error response (spec/20_memory.md R61, R62: a model refuses the host
  step). Safe. -/
  | busError
deriving DecidableEq, Repr

/-- What a step answers. -/
abbrev Result := Host.Outcome State Fault Refusal

/-- The latches hold 0 after reset: DESIGN CHOICE, the spec leaves them unspecified (R36, R251; log 3). -/
def Latches.reset : Latches := { op := 0, mode := 0, ch := 0, bits := 0, rate := 0, len := 0 }

/-- The machine right after reset (R251): every register 0, the engine idle, no buffer byte written. The buffer size is
the implementation's (log 2), the latches' values are log 3's, and the model's own fields are empty (logs 1, 5, 6, 7, 12,
20). -/
def State.reset : State where
  cmdOp := 0
  cmdMode := 0
  inChannels := 0
  inBits := 0
  inRate := 0
  inLen := 0
  statusBusy := false
  statusDone := false
  statusErr := 0
  errFound := 0
  errExpected := 0
  outChannels := 0
  outBits := 0
  outRate := 0
  outLen := 0
  lat := Latches.reset
  ibuf := []
  obuf := []
  abandonedLen := 0
  inReset := false
  bufBytes := Config.bufBytes
  doneUnseen := false
  hostOps := []
  schedule := []
  reads := []
  starts := 0
  draws := 0
  epoch := 0

end Sys2Proof.Machine
end

