-- ==== Sys2Proof/Machine/Flags.lean ====
section
/-! DEFINITION. STATUS, the only status and flag state of the block (spec/10_state.md R29), its error codes
(spec/60_exceptions.md R221), and the three ways it is written. No operation result sets a flag: PACK's overflow wraps
silently (spec/42_sumdiff_pack.md R182). -/

namespace Sys2Proof.Machine

/-- The operation errors of R221. -/
inductive ErrorKind where
  | formatBits
  | formatLength
  | channelMismatch
  | invalidMode
  | illegalOp
  | lengthRange
deriving DecidableEq, Repr

/-- The code of an error in STATUS.ERR (R221). -/
def errorCode : ErrorKind → BitVec 4
  | .formatBits => 1
  | .formatLength => 2
  | .channelMismatch => 3
  | .invalidMode => 4
  | .illegalOp => 5
  | .lengthRange => 6

/-- STATUS as a read returns it (R29): BUSY in bit 0, DONE in bit 1, ERR in bits 11:8, reserved bits 0. -/
def statusWord (s : State) : Word :=
  0#20 ++ s.statusErr ++ 0#6 ++ BitVec.ofBool s.statusDone ++ BitVec.ofBool s.statusBusy

/-- The flags an accepted START writes (spec/40_control.md R121): BUSY, and neither DONE nor an error. -/
def flagsStarted (s : State) : State :=
  { s with statusBusy := true, statusDone := false, statusErr := 0 }

/-- The flags the end of an operation writes: DONE and not BUSY, with its error code, 0 for success
(R127, R222). -/
def flagsEnded (code : BitVec 4) (s : State) : State :=
  { s with statusBusy := false, statusDone := true, statusErr := code }

end Sys2Proof.Machine
end

