-- ==== Sys2Proof/Machine/Ops.lean ====
section
/-! DEFINITION. The operations every meaning is built from: memory (spec/00_scope.md R10), START, the two ends of an
operation (spec/40_control.md R121, R127; spec/60_exceptions.md R222), the checks (R229), the frame loop and the
common operation sequence (R124). -/

namespace Sys2Proof.Machine

/-! ## Memory -/

/-- The byte at `a`; none where nothing has written it (R38). -/
def Memory.read : Memory → Nat → Option Byte
  | [], _ => none
  | (c, d) :: m, a => if a = c then some d else Memory.read m a

/-- `m` with byte `b` at `a`, in the canonical form. -/
def Memory.write : Memory → Nat → Byte → Memory
  | [], a, b => [(a, b)]
  | (c, d) :: m, a, b =>
    if a < c then (a, b) :: (c, d) :: m
    else if a = c then (a, b) :: m
    else (c, d) :: Memory.write m a b

/-- The bytes `v[8i+7:8i]` for i = 0 .. n-1, the least significant first (R10, R63). -/
def leBytes : Nat → Word → List Byte
  | 0, _ => []
  | n + 1, v => v.setWidth 8 :: leBytes n (v >>> 8)

/-- The value `{b[n-1], ..., b[1], b[0]}` of little-endian bytes (R10, R63), zero-extended to 32 bits. -/
def leWord : List Byte → Word
  | [] => 0
  | b :: bs => (leWord bs <<< 8) ||| b.setWidth 32

/-- The `n` bytes from `a` upward, as `byteAt` gives them; none where one of them has no value. -/
def loadBytes (byteAt : Nat → Option Byte) (a : Nat) : Nat → Option (List Byte)
  | 0 => some []
  | n + 1 =>
    match byteAt a, loadBytes byteAt (a + 1) n with
    | some b, some bs => some (b :: bs)
    | _, _ => none

/-- Stores bytes from `a` upward. -/
def storeBytes : Memory → Nat → List Byte → Memory
  | m, _, [] => m
  | m, a, b :: bs => storeBytes (Memory.write m a b) (a + 1) bs

/-- `MemRead(S, a, n)` (R10); none where a byte has no value. -/
def memRead (byteAt : Nat → Option Byte) (a n : Nat) : Option Word :=
  (loadBytes byteAt a n).map leWord

/-- `MemWrite(S, a, n, v)` (R10). -/
def memWrite (m : Memory) (a n : Nat) (v : Word) : Memory :=
  storeBytes m a (leBytes n v)

/-! ## START and the ends of an operation -/

/-- What a START copies into the latches (spec/10_state.md R36). -/
def latchesFrom (s : State) : Latches where
  op := s.cmdOp
  mode := s.cmdMode
  ch := s.inChannels
  bits := s.inBits
  rate := s.inRate
  len := s.inLen

/-- An accepted START (spec/40_control.md R121): it latches the command and the descriptor and clears DONE and the
error record. From here until the host has seen DONE = 1 the engine owns the buffers (R72). It is also the only way back
from an error (spec/60_exceptions.md R233). -/
def State.acceptStart (s : State) : State :=
  flagsStarted
    { s with lat := latchesFrom s, errFound := 0, errExpected := 0, doneUnseen := true, starts := s.starts + 1 }

/-- A write of 1 to CTRL.START (R121): accepted while BUSY = 0, dropped while BUSY = 1. -/
def State.start (s : State) : State := if s.statusBusy then s else s.acceptStart

/-- An error and the two values it records (spec/60_exceptions.md R221). -/
structure OpError where
  kind : ErrorKind
  found : Word
  expected : Word
deriving DecidableEq, Repr

/-- `raise Error(code, found, expected)`, the failed end of an operation (R222), the block's analogue of taking an
exception (R232): it records the error, clears OUT_* and leaves the engine idle. There is no handler and no return
operation; the next `State.acceptStart` clears the record (R233). -/
def State.raiseError (e : OpError) (s : State) : State :=
  flagsEnded (errorCode e.kind)
    { s with errFound := e.found, errExpected := e.expected, outChannels := 0, outBits := 0, outRate := 0, outLen := 0 }

/-- `complete(ch, bits, len)`, the successful end of an operation (spec/40_control.md R127). -/
def State.complete (ch bits : Half) (len : Word) (s : State) : State :=
  flagsEnded 0
    { s with
      outChannels := ch, outBits := bits, outRate := s.lat.rate, outLen := len, errFound := 0, errExpected := 0 }

/-! ## The checks -/

/-- CHANNEL_MISMATCH (spec/60_exceptions.md R223). -/
def channelError (lat : Latches) : Option OpError :=
  if lat.ch = 2#16 then none else some ⟨.channelMismatch, lat.ch.setWidth 32, 2⟩

/-- FORMAT_BITS (R228). -/
def bitsError (lat : Latches) : Option OpError :=
  if lat.bits = 32#16 then none else some ⟨.formatBits, lat.bits.setWidth 32, 32⟩

/-- LENGTH_RANGE (R226), then FORMAT_LENGTH (R227). -/
def lengthError (lat : Latches) (bufBytes : Nat) : Option OpError :=
  if bufBytes < lat.len.toNat then some ⟨.lengthRange, lat.len, BitVec.ofNat 32 bufBytes⟩
  else if lat.len.toNat % 4 = 0 then none
  else some ⟨.formatLength, lat.len, 4⟩

/-- The precondition the source names for an instruction: two channels for MONO and PACK, 32 bits for UNPACK (R229). -/
def preconditionError (lat : Latches) : Instr → Option OpError
  | .monoLeft => channelError lat
  | .monoRight => channelError lat
  | .monoSum => channelError lat
  | .monoDiff => channelError lat
  | .pack => channelError lat
  | .unpack => bitsError lat

/-- INVALID_MODE (R224) behind the channel check, which comes first (R156, R229). -/
def monoInvalidError (mode : BitVec 8) (lat : Latches) : OpError :=
  (channelError lat).getD ⟨.invalidMode, mode.setWidth 32, 3⟩

/-- ILLEGAL_OP (R225). -/
def illegalOpError (op : BitVec 4) : OpError := ⟨.illegalOp, op.setWidth 32, 2⟩

/-- `Check` (R229) for an instruction: the first check that fails. The illegal classes, whose checks come before its
length checks, are `illegalOpError` and `monoInvalidError`. -/
def check (i : Instr) (lat : Latches) (bufBytes : Nat) : Option OpError :=
  (preconditionError lat i).or (lengthError lat bufBytes)

/-! ## The frame loop and the common operation sequence -/

/-- Runs `body` on frames 0 .. n-1 in ascending order (spec/10_state.md R21); none as soon as a frame has no value. -/
def frames (body : Nat → Memory → Option Memory) : Nat → Memory → Option Memory
  | 0, m => some m
  | n + 1, m => (frames body n m).bind (body n)

/-- How many frames the latched payload holds: `LAT.len / 4` (spec/40_control.md R124). -/
def frameCount (s : State) : Nat := s.lat.len.toNat / 4

/-- The length in bytes of an instruction's result payload (spec/10_state.md R35): the bytes of OBUF it writes, from
offset 0. -/
def resultLen (lat : Latches) : Instr → Nat
  | .monoLeft => lat.len.toNat / 2
  | .monoRight => lat.len.toNat / 2
  | .monoSum => lat.len.toNat / 2
  | .monoDiff => lat.len.toNat / 2
  | .pack => lat.len.toNat
  | .unpack => lat.len.toNat

/-- An instruction's completion step (R124): its checks, then its frames, then `complete` with its result descriptor.
`outBytes` is how many bytes it writes a frame. An IBUF byte that nothing has written is the model fault (R38). -/
def runOperation (i : Instr) (body : Nat → Memory → Option Memory) (ch bits : Half) (outBytes : Nat) (s : State) :
    Result :=
  match check i s.lat s.bufBytes with
  | some e => .next (s.raiseError e)
  | none =>
    match frames body (frameCount s) s.obuf with
    | none => .fault .unwrittenInput
    | some m => .next (State.complete ch bits (BitVec.ofNat 32 (outBytes * frameCount s)) { s with obuf := m })

end Sys2Proof.Machine
end

