-- ==== Sys2Proof/Machine/Operands.lean ====
section
/-! DEFINITION. The data of the operations: samples (spec/30_encoding.md R95), how a frame is read from IBUF
(spec/20_memory.md R66), the selector (spec/41_channel_select.md R151) and the pack and unpack functions
(spec/42_sumdiff_pack.md R181, R191). Arithmetic is on unbounded integers and narrows at the end (spec/00_scope.md
R9). -/

namespace Sys2Proof.Machine

/-- `s16(p)` (R9): the two's-complement value of a 16-bit pattern. -/
def s16 (p : Half) : Int := p.toInt

/-- `lo16(x)` (R9): the low 16 bits of the two's-complement pattern of `x`. -/
def lo16 (x : Int) : Half := BitVec.ofInt 16 x

/-- A halving under a division policy (92 D1). -/
def halveBy : DivPolicy → Int → Int
  | .floor, x => x / 2
  | .trunc, x => x.tdiv 2

/-- `fdiv2(x)` (R9): the halving of this hardware, whose policy is floor. -/
def fdiv2 (x : Int) : Int := halveBy Config.divPolicy x

/-- The selector of the channel mux (spec/00_scope.md §6, Mode). -/
inductive Mode where
  | left
  | right
  | sumAvg
  | diffAvg
deriving DecidableEq, Repr

/-- `MonoSel(mode, L, R)` (R151). -/
def monoSel : Mode → Int → Int → Int
  | .left, l, _ => l
  | .right, _, r => r
  | .sumAvg, l, r => fdiv2 (l + r)
  | .diffAvg, l, r => fdiv2 (l - r)

/-- `Pack(L, R)` (R181): the sum term in bits 31:16, the difference term in bits 15:0, each wrapped (R182). -/
def packWord (l r : Int) : Word := lo16 (l + r) ++ lo16 (l - r)

/-- The sum lane, bits 31:16 of a packed word (R183). -/
def sumLane (w : Word) : Half := w.extractLsb' 16 16

/-- The difference lane, bits 15:0 of a packed word (R183). -/
def diffLane (w : Word) : Half := w.extractLsb' 0 16

/-- `Unpack(W)` (R191). -/
def unpackWord (w : Word) : Int × Int :=
  (fdiv2 (s16 (sumLane w) + s16 (diffLane w)), fdiv2 (s16 (sumLane w) - s16 (diffLane w)))

/-- The 16-bit sample at offset `a` of a buffer (R63). -/
def readSample (m : Memory) (a : Nat) : Option Int :=
  (memRead (Memory.read m) a 2).map fun w => s16 (w.setWidth 16)

/-- Frame `k` of IBUF as MONO and PACK read it: L at 4k, R at 4k+2 (R66). Both samples are read whichever is used
(R152). -/
def readFrame (m : Memory) (k : Nat) : Option (Int × Int) :=
  match readSample m (4 * k), readSample m (4 * k + 2) with
  | some l, some r => some (l, r)
  | _, _ => none

/-- Frame `k` of IBUF as UNPACK reads it: one packed word at 4k (R66). -/
def readPacked (m : Memory) (k : Nat) : Option Word := memRead (Memory.read m) (4 * k) 4

/-- Writes a 16-bit sample to a buffer (R63). -/
def writeSample (m : Memory) (a : Nat) (x : Int) : Memory := memWrite m a 2 ((lo16 x).setWidth 32)

end Sys2Proof.Machine
end

