-- ==== Sys2Proof/Machine/Mono.lean ====
section
/-! DEFINITION. The channel selector mux, MONO (spec/41_channel_select.md). -/

namespace Sys2Proof.Machine

/-- One turn of ExecMONO's loop (R150): reads frame `k`, selects, and writes one sample at OBUF offset 2k. -/
def monoFrame (mode : Mode) (ibuf : Memory) (k : Nat) (obuf : Memory) : Option Memory :=
  (readFrame ibuf k).map fun f => writeSample obuf (2 * k) (monoSel mode f.1 f.2)

/-- MONO.LEFT (R152). -/
def execMonoLeft (s : State) : Result := runOperation .monoLeft (monoFrame .left s.ibuf) 1 16 2 s

/-- MONO.RIGHT (R153). -/
def execMonoRight (s : State) : Result := runOperation .monoRight (monoFrame .right s.ibuf) 1 16 2 s

/-- MONO.SUM (R154). -/
def execMonoSum (s : State) : Result := runOperation .monoSum (monoFrame .sumAvg s.ibuf) 1 16 2 s

/-- MONO.DIFF (R155). -/
def execMonoDiff (s : State) : Result := runOperation .monoDiff (monoFrame .diffAvg s.ibuf) 1 16 2 s

end Sys2Proof.Machine
end

