-- ==== Sys2Proof/Machine/Pack.lean ====
section
/-! DEFINITION. The sum-difference packer and unpacker (spec/42_sumdiff_pack.md). -/

namespace Sys2Proof.Machine

/-- One turn of ExecPACK's loop (R180): reads frame `k` and writes its packed word at OBUF offset 4k. -/
def packFrame (ibuf : Memory) (k : Nat) (obuf : Memory) : Option Memory :=
  (readFrame ibuf k).map fun f => memWrite obuf (4 * k) 4 (packWord f.1 f.2)

/-- One turn of ExecUNPACK's loop (R190): reads word `k` and writes its left sample at OBUF offset 4k and its right
sample at 4k+2. -/
def unpackFrame (ibuf : Memory) (k : Nat) (obuf : Memory) : Option Memory :=
  (readPacked ibuf k).map fun w =>
    writeSample (writeSample obuf (4 * k) (unpackWord w).1) (4 * k + 2) (unpackWord w).2

/-- PACK (R180). -/
def execPack (s : State) : Result := runOperation .pack (packFrame s.ibuf) 1 32 4 s

/-- UNPACK (R190). -/
def execUnpack (s : State) : Result := runOperation .unpack (unpackFrame s.ibuf) 2 16 4 s

end Sys2Proof.Machine
end

