-- ==== Sys2Proof/Machine/Dispatch.lean ====
section
/-! DEFINITION. The completion step of each instruction: one arm per constructor of Instr
(spec/40_control.md R124, R126). -/

namespace Sys2Proof.Machine

/-- The engine's completion of instruction `i` on the latched descriptor and IBUF. -/
def exec (i : Instr) (s : State) : Host.Outcome State Fault Refusal :=
  match i with
  | .monoLeft => Sys2Proof.Machine.execMonoLeft s
  | .monoRight => Sys2Proof.Machine.execMonoRight s
  | .monoSum => Sys2Proof.Machine.execMonoSum s
  | .monoDiff => Sys2Proof.Machine.execMonoDiff s
  | .pack => Sys2Proof.Machine.execPack s
  | .unpack => Sys2Proof.Machine.execUnpack s

end Sys2Proof.Machine
end

