-- ==== Sys2Proof/Machine/Engine.lean ====
section
/-! DEFINITION. The engine's turn: decoding the latched command and completing it (spec/40_control.md R124;
spec/30_encoding.md R101). -/

namespace Sys2Proof.Machine

/-- The command the engine runs, decoded from LAT.op and LAT.mode when it completes (R101). -/
def latchedCommand (s : State) : Command := decodeFields s.lat.op s.lat.mode

/-- The completion step (R124): an instruction runs, and a command of an illegal class ends with its error
(R156, R225). -/
def completionStep (s : State) : Result :=
  match latchedCommand s with
  | .legal i => exec i s
  | .monoInvalid mode => .next (s.raiseError (monoInvalidError mode s.lat))
  | .illegal op => .next (s.raiseError (illegalOpError op))

/-- Is an operation running that can complete? Not while reset is asserted: an operation in progress then is abandoned
(spec/70_reset_and_hazards.md R250). -/
def engineReady (s : State) : Bool := s.statusBusy && !s.inReset

/-- The engine's turn: it completes the running operation, or does nothing if none is running. -/
def engineTurn (s : State) : Result := if engineReady s then completionStep s else .next s

end Sys2Proof.Machine
end

