-- ==== Sys2Proof/Machine/Registers.lean ====
section
/-! DEFINITION. The register window as the host reads and writes it (spec/10_state.md R22 to R35;
spec/20_memory.md R61; spec/40_control.md R120, R121). -/

namespace Sys2Proof.Machine

/-- CMD as a read returns it: MODE in bits 15:8, OP in bits 3:0, reserved bits 0 (R24). -/
def cmdWord (s : State) : Word := 0#16 ++ s.cmdMode ++ 0#4 ++ s.cmdOp

/-- `REG(off)` (R22), with reserved bits as 0. CTRL and the reserved offsets read 0. -/
def readReg (s : State) (off : Nat) : Word :=
  if off = 0x04 then cmdWord s
  else if off = 0x08 then s.inChannels.setWidth 32
  else if off = 0x0C then s.inBits.setWidth 32
  else if off = 0x10 then s.inRate
  else if off = 0x14 then s.inLen
  else if off = 0x18 then statusWord s
  else if off = 0x1C then s.errFound
  else if off = 0x20 then s.errExpected
  else if off = 0x24 then s.outChannels.setWidth 32
  else if off = 0x28 then s.outBits.setWidth 32
  else if off = 0x2C then s.outRate
  else if off = 0x30 then s.outLen
  else 0

/-- The effect of `WR off, v` (R121). Read-only and reserved offsets ignore the write. -/
def writeReg (s : State) (off : Nat) (v : Word) : State :=
  if off = 0x00 then (if v.getLsbD 0 then s.start else s)
  else if off = 0x04 then { s with cmdOp := opField v, cmdMode := modeField v }
  else if off = 0x08 then { s with inChannels := v.setWidth 16 }
  else if off = 0x0C then { s with inBits := v.setWidth 16 }
  else if off = 0x10 then { s with inRate := v }
  else if off = 0x14 then { s with inLen := v }
  else s

/-- May the host access REGS so (R61)? 32 bits wide, at a multiple of 4 that is at most 0x3C. -/
def regAccessOk (off width : Nat) : Bool := decide (width = 4 ∧ off % 4 = 0 ∧ off ≤ 0x3C)

/-- Is `off` one of OUT_CHANNELS, OUT_BITS, OUT_RATE and OUT_LEN? -/
def isOutReg (off : Nat) : Bool := decide (off = 0x24 ∨ off = 0x28 ∨ off = 0x2C ∨ off = 0x30)

/-- Is `off` one of ERR_FOUND and ERR_EXPECTED? -/
def isErrReg (off : Nat) : Bool := decide (off = 0x1C ∨ off = 0x20)

/-- Does the engine own the buffers and the result registers? From an accepted START until the host has read STATUS with
DONE = 1 (spec/20_memory.md R72; spec/70_reset_and_hazards.md R253, R254; log 7). -/
def engineOwns (s : State) : Bool := s.statusBusy || s.doneUnseen

/-- Has the operation completed without the host having seen it? Until it does, OUT_*, ERR_* and OBUF read as unspecified
values (R253; log 7). -/
def resultUnseen (s : State) : Bool := !s.statusBusy && s.doneUnseen

/-- What the host sees of the register at `off`, except for OUT_* while BUSY = 1: `REG(off)`, or for OUT_* and ERR_* of an
unseen result the free value of that operation and register, the same at every read (R70, R253; log 20). While BUSY = 1,
ERR_* hold 0 and are seen so (R71 item 3). -/
def visibleReg (s : State) (off : Nat) : Word :=
  if resultUnseen s && (isOutReg off || isErrReg off) then Config.unseenReg s.starts off else readReg s off

end Sys2Proof.Machine
end

