-- ==== Sys2Proof/Machine/HostAccess.lean ====
section
/-! DEFINITION. The host's accesses (spec/40_control.md §1), their pseudo-instructions (spec/30_encoding.md R103), and
the host's turn. -/

namespace Sys2Proof.Machine

/-- The host's read returns `v`. -/
def State.reply (v : Word) (s : State) : State := { s with reads := s.reads ++ [v] }

/-- The host's read returns an unspecified value of `n` bytes, a fresh one each time (R71 item 3; log 6). -/
def State.replyAny (n : Nat) (s : State) : State :=
  State.reply (leWord (leBytes n (Config.busyRead s.draws))) { s with draws := s.draws + 1 }

/-- What a read of the register at `off` makes known to the host: a read of STATUS with DONE = 1 ends the hazard window
(R71 item 2, R72; log 7). Nothing of the block changes (R70). -/
def State.noteRead (off : Nat) (s : State) : State :=
  { s with doneUnseen := s.doneUnseen && !(decide (off = 0x18) && s.statusDone) }

/-- `RD off` (R120). While reset is asserted a read returns 0 (spec/70_reset_and_hazards.md R250). -/
def hostRd (off width : Nat) (s : State) : Result :=
  if !regAccessOk off width then .refused .busError
  else if s.inReset then .next (s.reply 0)
  else if s.statusBusy && isOutReg off then .next (s.replyAny 4)
  else .next (State.reply (visibleReg s off) (s.noteRead off))

/-- `WR off, v` (R121). While reset is asserted a write has no effect (R250). -/
def hostWr (off width : Nat) (v : Word) (s : State) : Result :=
  if !regAccessOk off width then .refused .busError
  else if s.inReset then .next s
  else .next (writeReg s off v)

/-- May the host access a buffer so (R62)? -/
def bufAccessOk (bufBytes a n : Nat) : Bool := decide ((n = 1 ∨ n = 2 ∨ n = 4) ∧ a + n ≤ bufBytes)

/-- The byte of IBUF the host reads at `a`: what it holds, or an unspecified value where nothing has written it, the
same until the next reset (R70, R251; log 5). -/
def ibufByte (s : State) (a : Nat) : Option Byte :=
  some ((Memory.read s.ibuf a).getD (Config.unwrittenIbuf s.epoch a))

/-- The byte of OBUF the host reads at `a` once it has seen DONE = 1: what it holds. Where nothing has written it since
reset there is no value (R38), but for the bytes that an operation interrupted by that reset may have written: these have
any value, the same until the next reset (R70, R250; log 21). -/
def seenObufByte (s : State) (a : Nat) : Option Byte :=
  (Memory.read s.obuf a).or (if a < s.abandonedLen then some (Config.abandonedObuf s.epoch a) else none)

/-- The byte of OBUF the host reads at `a` while BUSY = 0; while the result is unseen, the free value of that operation and
address, the same at every read (R70, R253; log 20). -/
def obufByte (s : State) (a : Nat) : Option Byte :=
  if resultUnseen s then some (Config.unseenObuf s.starts a) else seenObufByte s a

/-- `RDB S, a, n` (R123). IBUF reads as it is, busy or not (R71 item 3, R72). OBUF reads as any value while BUSY = 1
(R71 item 3), and otherwise as `obufByte` gives it; a byte that has no value is the model fault (R38). -/
def hostRdb (b : Buffer) (a n : Nat) (s : State) : Result :=
  if !bufAccessOk s.bufBytes a n then .refused .busError
  else if s.inReset then .next (s.reply 0)
  else
    match b with
    | .ibuf => .next (s.reply ((memRead (ibufByte s) a n).getD 0))
    | .obuf =>
      if s.statusBusy then .next (s.replyAny n)
      else
        match memRead (obufByte s) a n with
        | some v => .next (s.reply v)
        | none => .fault .unwrittenOutput

/-- `WRB S, a, n, v` (R123). A write to OBUF is ignored (R62). A write to IBUF from an accepted START
until the host has seen DONE = 1 is the model fault (R72, R254). -/
def hostWrb (b : Buffer) (a n : Nat) (v : Word) (s : State) : Result :=
  if !bufAccessOk s.bufBytes a n then .refused .busError
  else if s.inReset then .next s
  else
    match b with
    | .obuf => .next s
    | .ibuf =>
      if engineOwns s then .fault .bufferHazard
      else .next { s with ibuf := memWrite s.ibuf a n v }

/-- What a read of STATUS returns: 0 while reset is asserted (R250). -/
def polledStatus (s : State) : Word := if s.inReset then 0 else statusWord s

/-- One poll of `WAIT` (R129): `RD 0x18`, and the WAIT stays at the head of the host's list until bit 1 is 1. -/
def hostWait (s : State) : Result :=
  if (polledStatus s).getLsbD 1 then .next (State.reply (polledStatus s) (s.noteRead 0x18))
  else .next (State.reply (polledStatus s) { s with hostOps := .wait :: s.hostOps })

/-- One access of the host, which has been taken from its list. -/
def hostAccess (h : HostOp) (s : State) : Result :=
  match h with
  | .rd off width => hostRd off width s
  | .wr off width v => hostWr off width v s
  | .rdb b a n => hostRdb b a n s
  | .wrb b a n v => hostWrb b a n v s
  | .wait => hostWait s

/-- The host's turn: its next access, or nothing if it has none. -/
def hostTurn (s : State) : Result :=
  match s.hostOps with
  | [] => .next s
  | h :: rest => hostAccess h { s with hostOps := rest }

/-! ## Pseudo-instructions (spec/30_encoding.md R103) -/

/-- `START`. -/
def pseudoStart : List HostOp := [.wr 0x00 4 1]

/-- `RUN c`. -/
def pseudoRun (c : Word) : List HostOp := .wr 0x04 4 c :: (pseudoStart ++ [.wait])

/-- `DESC ch, bits, rate, len`. -/
def pseudoDesc (ch bits rate len : Word) : List HostOp :=
  [.wr 0x08 4 ch, .wr 0x0C 4 bits, .wr 0x10 4 rate, .wr 0x14 4 len]

/-- `WORD k, w`. -/
def pseudoWord (k : Nat) (w : Word) : List HostOp := [.wrb .ibuf (4 * k) 4 w]

/-- `FRAME k, l, r`. -/
def pseudoFrame (k : Nat) (l r : Int) : List HostOp :=
  [.wrb .ibuf (4 * k) 2 ((lo16 l).setWidth 32), .wrb .ibuf (4 * k + 2) 2 ((lo16 r).setWidth 32)]

end Sys2Proof.Machine
end

