-- ==== Sys2Proof/Machine/ResetInput.lean ====
section
/-! DEFINITION. The reset input (spec/70_reset_and_hazards.md R250, R251). -/

namespace Sys2Proof.Machine

/-- Reset is asserted. From here on accesses have no effect, reads return 0 and the engine makes no completion
(R250); the items take their reset values when it is released. -/
def assertReset (s : State) : State := { s with inReset := true }

/-- How many bytes of OBUF, from offset 0, the operation in progress may have written (R250): its whole result payload,
or none if there is no such operation or its checks fail, since a failed operation writes no byte
(spec/60_exceptions.md R222). -/
def inProgressLen (s : State) : Nat :=
  if s.statusBusy then
    match latchedCommand s with
    | .legal i =>
      match check i s.lat s.bufBytes with
      | none => resultLen s.lat i
      | some _ => 0
    | .monoInvalid _ => 0
    | .illegal _ => 0
  else 0

/-- Reset is released: every item takes the value of R251 and the block is idle. The OBUF bytes that an
abandoned operation may have written are unspecified (log 21). The implementation's buffer size stays,
and so does what belongs to the outside: the host's list and what it has read, and whose turn it is. Releasing a reset
that is not asserted is no event. -/
def releaseReset (s : State) : State :=
  if s.inReset then
    { State.reset with
      abandonedLen := inProgressLen s, bufBytes := s.bufBytes, hostOps := s.hostOps, schedule := s.schedule,
      reads := s.reads, starts := s.starts, draws := s.draws, epoch := s.epoch + 1 }
  else s

end Sys2Proof.Machine
end

