-- ==== Sys2Proof/Machine/Step.lean ====
section
/-! DEFINITION. One step of the machine: the turn of one agent (spec/10_state.md R20; log 1), and how a command word is
put where the engine decodes it (log 11). -/

namespace Sys2Proof.Machine

/-- The turn of one agent. -/
def takeTurn (t : Turn) (s : State) : Result :=
  match t with
  | .host => hostTurn s
  | .engine => engineTurn s
  | .assertReset => .next (assertReset s)
  | .releaseReset => .next (releaseReset s)

/-- One step. The scheduled agent moves. With nothing scheduled, a running operation completes, so that every accepted
START ends (spec/40_control.md R125), and an idle engine leaves the turn to the host. -/
def step (s : State) : Host.Outcome State Fault Refusal :=
  match s.schedule with
  | t :: rest => takeTurn t { s with schedule := rest }
  | [] => if engineReady s then engineTurn s else hostTurn s

/-- `s` right after an accepted START of the command word whose low `nbits` bits are those of `w`, the engine moving
next: CMD holds the word, the latches hold CMD and IN_* (R36), and nothing is scheduled before the completion. -/
def State.withFetchWord (s : State) (nbits w : Nat) : State :=
  State.start
    { s with
      cmdOp := opField (tableWord nbits w), cmdMode := modeField (tableWord nbits w), statusBusy := false,
      inReset := false, schedule := [] }

end Sys2Proof.Machine
end

