-- ==== Sys2Proof/Safety.lean ====
section
/-! DEFINITION. The states the block can be in (`State.Inv`), and what a safe step is, in the terms the statements use. -/

namespace Sys2Proof.Machine

/-- Every byte of `m` below `n` has been written (spec/10_state.md R38). -/
def Memory.WrittenBelow (m : Memory) (n : Nat) : Prop := ∀ a, a < n → (Memory.read m a).isSome

/-- Every byte written to `m` lies below `n`. -/
def Memory.Within (m : Memory) (n : Nat) : Prop := ∀ c ∈ m, c.1 < n

/-- The two buffers: canonical, inside BUF_BYTES, and of a legal size (spec/20_memory.md R60, 92 D10). -/
structure State.BuffersOk (s : State) : Prop where
  legalSize : Config.LegalBufBytes s.bufBytes
  ibufWf : Memory.wf s.ibuf = true
  obufWf : Memory.wf s.obuf = true
  ibufWithin : Memory.Within s.ibuf s.bufBytes
  obufWithin : Memory.Within s.obuf s.bufBytes
  abandonedWithin : s.abandonedLen ≤ s.bufBytes

/-- STATUS and the error record (spec/10_state.md R29 to R31): BUSY and DONE are never both 1, ERR is one of the codes
0 to 6, the engine owns the buffers while it runs (spec/20_memory.md R72), and the record is clear while an operation
runs, after a success and before the first START. -/
structure State.StatusOk (s : State) : Prop where
  notBusyAndDone : ¬ (s.statusBusy = true ∧ s.statusDone = true)
  unseenWhileBusy : s.statusBusy = true → s.doneUnseen = true
  errCode : s.statusErr.toNat ≤ 6
  recordClear : s.statusDone = false ∨ s.statusErr = 0 → s.statusErr = 0 ∧ s.errFound = 0 ∧ s.errExpected = 0

/-- The result descriptor of a finished operation (spec/10_state.md R32 to R35): all 0 after an error; after a success
one of the three result forms, with every byte of the output payload written and inside OBUF. -/
structure State.ResultOk (s : State) : Prop where
  clearedByError :
    s.statusErr ≠ 0 → s.outChannels = 0 ∧ s.outBits = 0 ∧ s.outRate = 0 ∧ s.outLen = 0
  describedBySuccess :
    s.statusDone = true → s.statusErr = 0 →
      (s.outChannels = 1 ∧ s.outBits = 16 ∨ s.outChannels = 1 ∧ s.outBits = 32 ∨ s.outChannels = 2 ∧ s.outBits = 16)
  payloadWritten : s.outLen.toNat ≤ s.bufBytes ∧ Memory.WrittenBelow s.obuf s.outLen.toNat

/-- What holds at reset and every step keeps. -/
structure State.Inv (s : State) : Prop where
  buffers : s.BuffersOk
  status : s.StatusOk
  result : s.ResultOk

/-- The latched payload can be processed (spec/60_exceptions.md R226, R227; spec/10_state.md R38): its length is inside
the buffer and a whole number of frames, and every byte of it has been written. -/
structure State.PayloadReady (s : State) : Prop where
  inRange : s.lat.len.toNat ≤ s.bufBytes
  wholeFrames : s.lat.len.toNat % 4 = 0
  written : Memory.WrittenBelow s.ibuf s.lat.len.toNat

/-- The engine moves next and completes its operation from `u`: an operation is running, and either nothing is
scheduled, or the engine is and `u` has that turn used up (log 1). -/
def State.EngineMovesFrom (s u : State) : Prop :=
  s.statusBusy = true ∧ s.inReset = false ∧
    (s.schedule = [] ∧ u = s ∨ ∃ rest, s.schedule = .engine :: rest ∧ u = { s with schedule := rest })

/-- Is this access a read (spec/40_control.md R120, R123)? -/
def HostOp.isRead : HostOp → Bool
  | .rd _ _ => true
  | .rdb _ _ _ => true
  | .wr _ _ _ => false
  | .wrb _ _ _ _ => false
  | .wait => false

/-- The host's reads `hs`, made one after the other with nothing between them, lead from `s` to `u`. -/
def ReadsLead : State → List HostOp → State → Prop
  | s, [], u => u = s
  | s, h :: hs, u => h.isRead = true ∧ ∃ t, hostAccess h s = .next t ∧ ReadsLead t hs u

/-- A value a signed 16-bit sample can hold (spec/00_scope.md R6). -/
abbrev FitsS16 (x : Int) : Prop := -32768 ≤ x ∧ x ≤ 32767

/-- `s` after an operation that failed, register by register as spec/60_exceptions.md R222 lists them. -/
def State.failedWith (s : State) (code : BitVec 4) (found expected : Word) : State :=
  { s with
    statusErr := code, errFound := found, errExpected := expected, outChannels := 0, outBits := 0, outRate := 0,
    outLen := 0, statusBusy := false, statusDone := true }

/-- `s` after an operation that left `m` in OBUF and succeeded, register by register as spec/40_control.md R127 lists
them. -/
def State.succeededWith (s : State) (m : Memory) (ch bits : Half) (len : Nat) : State :=
  { s with
    obuf := m, outChannels := ch, outBits := bits, outRate := s.lat.rate, outLen := BitVec.ofNat 32 len,
    statusErr := 0, errFound := 0, errExpected := 0, statusBusy := false, statusDone := true }

/-- A step is safe when it answers a next state: no model fault and no bus error. -/
def StepsSafely (s : State) : Prop := ∃ t, step s = .next t

end Sys2Proof.Machine
end

