-- ==== Sys2Proof/Certificates/Slice0/Obligations.lean ====
section
/-! DEFINITION. The statements for the provers. Each docstring names the rule of spec/ it formalises. -/

open Sys2Proof Sys2Proof.Machine

/-! ## The command word -/

/-- R99, R100, R102 and 95 V28: command words written out in the spec decode to what it says they are. -/
def Obligations.KnownCommandWordsDecode : Prop :=
  decodeWord 0x00000000#32 = .legal .monoLeft ∧ decodeWord 0x00000100#32 = .legal .monoRight ∧
  decodeWord 0x00000200#32 = .legal .monoSum ∧ decodeWord 0x00000300#32 = .legal .monoDiff ∧
  decodeWord 0xFFFFFFF1#32 = .legal .pack ∧ decodeWord 0x00005501#32 = .legal .pack ∧
  decodeWord 0x00000002#32 = .legal .unpack ∧ decodeWord 0x00000900#32 = .monoInvalid 9#8 ∧
  decodeWord 0x00000003#32 = .illegal 3#4 ∧ decodeWord 0x12345678#32 = .illegal 8#4

/-- Decode and encode agree on every well-formed command, whatever stands in the reserved bits 31:16 and 7:4
(R90, R91, R101). -/
def Obligations.DecodeOfEncodeWhateverTheReservedBits : Prop :=
  ∀ (c : Command) (reserved : Word), c.wf = true →
    decodeWord (encodeCommand c ||| (reserved &&& 0xFFFF00F0#32)) = c

/-- R99: a command word is an instruction exactly when it matches that instruction's row, so no word matches two. -/
def Obligations.OpcodeRowsDecodeTheirWords : Prop :=
  ∀ (w : Word) (i : Instr), decodeWord w = .legal i ↔ w &&& encodingMask i = encode i

/-- R100: the six rows and the two illegal classes cover all 2^32 words. -/
def Obligations.DecoderCoversEveryWord : Prop :=
  ∀ w : Word,
    (∃ i : Instr, w &&& encodingMask i = encode i ∧ decodeWord w = .legal i) ∨
    (opField w = 0#4 ∧ 4 ≤ (modeField w).toNat ∧ decodeWord w = .monoInvalid (modeField w)) ∨
    (3 ≤ (opField w).toNat ∧ decodeWord w = .illegal (opField w))

/-! ## What each instruction does -/

/-- R152: MONO.LEFT of a ready payload of stereo frames succeeds and routes the left channel. -/
def Obligations.MonoLeftCompletes : Prop :=
  ∀ s : State, s.lat.ch = 2#16 → s.PayloadReady →
    ∃ m, exec .monoLeft s = .next (s.succeededWith m 1 16 (s.lat.len.toNat / 2)) ∧
      (∀ k, k < s.lat.len.toNat / 4 → ∃ l r, readFrame s.ibuf k = some (l, r) ∧ readSample m (2 * k) = some l) ∧
      ∀ a, s.lat.len.toNat / 2 ≤ a → Memory.read m a = Memory.read s.obuf a

/-- R153: MONO.RIGHT of a ready payload succeeds and routes the right channel. -/
def Obligations.MonoRightCompletes : Prop :=
  ∀ s : State, s.lat.ch = 2#16 → s.PayloadReady →
    ∃ m, exec .monoRight s = .next (s.succeededWith m 1 16 (s.lat.len.toNat / 2)) ∧
      (∀ k, k < s.lat.len.toNat / 4 → ∃ l r, readFrame s.ibuf k = some (l, r) ∧ readSample m (2 * k) = some r) ∧
      ∀ a, s.lat.len.toNat / 2 ≤ a → Memory.read m a = Memory.read s.obuf a

/-- R154: MONO.SUM of a ready payload succeeds with the floor of half of each frame's sum; `/ 2` on integers floors. -/
def Obligations.MonoSumCompletes : Prop :=
  ∀ s : State, s.lat.ch = 2#16 → s.PayloadReady →
    ∃ m, exec .monoSum s = .next (s.succeededWith m 1 16 (s.lat.len.toNat / 2)) ∧
      (∀ k, k < s.lat.len.toNat / 4 →
        ∃ l r, readFrame s.ibuf k = some (l, r) ∧ readSample m (2 * k) = some ((l + r) / 2)) ∧
      ∀ a, s.lat.len.toNat / 2 ≤ a → Memory.read m a = Memory.read s.obuf a

/-- R155: MONO.DIFF of a ready payload succeeds with the floor of half of each frame's difference. -/
def Obligations.MonoDiffCompletes : Prop :=
  ∀ s : State, s.lat.ch = 2#16 → s.PayloadReady →
    ∃ m, exec .monoDiff s = .next (s.succeededWith m 1 16 (s.lat.len.toNat / 2)) ∧
      (∀ k, k < s.lat.len.toNat / 4 →
        ∃ l r, readFrame s.ibuf k = some (l, r) ∧ readSample m (2 * k) = some ((l - r) / 2)) ∧
      ∀ a, s.lat.len.toNat / 2 ≤ a → Memory.read m a = Memory.read s.obuf a

/-- R180, R181: PACK of a ready payload succeeds; each frame becomes the little-endian word whose upper half is the low
16 bits of the sum and whose lower half is the low 16 bits of the difference. -/
def Obligations.PackCompletes : Prop :=
  ∀ s : State, s.lat.ch = 2#16 → s.PayloadReady →
    ∃ m, exec .pack s = .next (s.succeededWith m 1 32 s.lat.len.toNat) ∧
      (∀ k, k < s.lat.len.toNat / 4 →
        ∃ l r, readFrame s.ibuf k = some (l, r) ∧
          memRead (Memory.read m) (4 * k) 4 = some (BitVec.ofInt 16 (l + r) ++ BitVec.ofInt 16 (l - r))) ∧
      ∀ a, s.lat.len.toNat ≤ a → Memory.read m a = Memory.read s.obuf a

/-- R190, R191: UNPACK of a ready payload of 32-bit words succeeds, whatever the channel count is (R196); each word
becomes the frame of the floors of half of the sum and of half of the difference of its two lanes. -/
def Obligations.UnpackCompletes : Prop :=
  ∀ s : State, s.lat.bits = 32#16 → s.PayloadReady →
    ∃ m, exec .unpack s = .next (s.succeededWith m 2 16 s.lat.len.toNat) ∧
      (∀ k, k < s.lat.len.toNat / 4 →
        ∃ w, readPacked s.ibuf k = some w ∧
          readSample m (4 * k) = some (((w.extractLsb' 16 16).toInt + (w.extractLsb' 0 16).toInt) / 2) ∧
          readSample m (4 * k + 2) = some (((w.extractLsb' 16 16).toInt - (w.extractLsb' 0 16).toInt) / 2)) ∧
      ∀ a, s.lat.len.toNat ≤ a → Memory.read m a = Memory.read s.obuf a

/-- The frame of all six instructions: an instruction that answers a next state leaves every host register, every latch,
IBUF, and the model's own fields as they were; OBUF changes only in the bytes its frames are written to (2 at 2k for
MONO, 4 at 4k for PACK and UNPACK), and not at all when the operation fails (R67, R222). -/
def Obligations.InstructionFrame : Prop :=
  ∀ (i : Instr) (s t : State), exec i s = .next t →
    (t.cmdOp = s.cmdOp ∧ t.cmdMode = s.cmdMode ∧ t.inChannels = s.inChannels ∧ t.inBits = s.inBits ∧
      t.inRate = s.inRate ∧ t.inLen = s.inLen ∧ t.lat = s.lat ∧ t.ibuf = s.ibuf ∧ t.inReset = s.inReset ∧
      t.bufBytes = s.bufBytes ∧ t.hostOps = s.hostOps ∧ t.schedule = s.schedule ∧ t.reads = s.reads ∧
      t.draws = s.draws ∧ t.epoch = s.epoch ∧ t.doneUnseen = s.doneUnseen ∧ t.starts = s.starts ∧
      t.abandonedLen = s.abandonedLen) ∧
    (∀ a, (∀ k, k < frameCount s →
        a < (if i = .pack ∨ i = .unpack then 4 else 2) * k ∨
        (if i = .pack ∨ i = .unpack then 4 else 2) * k + (if i = .pack ∨ i = .unpack then 4 else 2) ≤ a) →
      Memory.read t.obuf a = Memory.read s.obuf a) ∧
    (t.statusErr ≠ 0#4 → t.obuf = s.obuf)

/-! ## Errors -/

/-- R223: MONO in its four modes and PACK end with CHANNEL_MISMATCH when the latched channel count is not 2; UNPACK
never raises it. -/
def Obligations.WrongChannelCountIsChannelMismatch : Prop :=
  (∀ (i : Instr) (s : State), i ≠ .unpack → s.lat.ch ≠ 2#16 →
    exec i s = .next (s.failedWith 3 (s.lat.ch.setWidth 32) 2)) ∧
  ∀ s t : State, exec .unpack s = .next t → t.statusErr ≠ 3#4

/-- R228: UNPACK ends with FORMAT_BITS when the latched bits per sample are not 32; MONO and PACK never raise it. -/
def Obligations.WrongBitsIsFormatBits : Prop :=
  (∀ s : State, s.lat.bits ≠ 32#16 → exec .unpack s = .next (s.failedWith 1 (s.lat.bits.setWidth 32) 32)) ∧
  ∀ (i : Instr) (s t : State), i ≠ .unpack → exec i s = .next t → t.statusErr ≠ 1#4

/-- R226: with its other precondition met, an instruction whose payload is longer than the buffer ends with
LENGTH_RANGE. -/
def Obligations.TooLongIsLengthRange : Prop :=
  ∀ (i : Instr) (s : State), (if i = .unpack then s.lat.bits = 32#16 else s.lat.ch = 2#16) →
    s.bufBytes < s.lat.len.toNat →
    exec i s = .next (s.failedWith 6 s.lat.len (BitVec.ofNat 32 s.bufBytes))

/-- R227: with its other precondition met, an instruction whose payload fits the buffer and is not a whole number of
frames ends with FORMAT_LENGTH. -/
def Obligations.PartialFrameIsFormatLength : Prop :=
  ∀ (i : Instr) (s : State), (if i = .unpack then s.lat.bits = 32#16 else s.lat.ch = 2#16) →
    s.lat.len.toNat ≤ s.bufBytes → s.lat.len.toNat % 4 ≠ 0 →
    exec i s = .next (s.failedWith 2 s.lat.len 4)

/-- R156, R224: MONO with a mode of 4 to 255 ends with INVALID_MODE when the channel count is 2, whatever the payload,
and with CHANNEL_MISMATCH when it is not (R229). `EngineMovesFrom` says when it is the engine's turn (log 1). -/
def Obligations.InvalidModeEndsWithItsError : Prop :=
  ∀ s u : State, s.EngineMovesFrom u → s.lat.op = 0#4 → 4 ≤ s.lat.mode.toNat →
    step s = .next
      (if s.lat.ch = 2#16 then u.failedWith 4 (s.lat.mode.setWidth 32) 3
       else u.failedWith 3 (s.lat.ch.setWidth 32) 2)

/-- R225: OP 3 to 15 ends with ILLEGAL_OP, before any other check. `EngineMovesFrom` says when it is the engine's turn
(log 1). -/
def Obligations.ReservedOpIsIllegalOp : Prop :=
  ∀ s u : State, s.EngineMovesFrom u → 3 ≤ s.lat.op.toNat →
    step s = .next (u.failedWith 5 (s.lat.op.setWidth 32) 2)

/-- R38, R66: an instruction stops exactly when its checks pass and a byte of its payload was never written, and then
with the model fault UnwrittenInput. -/
def Obligations.UnwrittenPayloadIsTheOnlyStop : Prop :=
  ∀ (i : Instr) (s : State),
    (∀ f, exec i s = .fault f ↔
      f = .unwrittenInput ∧ (if i = .unpack then s.lat.bits = 32#16 else s.lat.ch = 2#16) ∧
        s.lat.len.toNat ≤ s.bufBytes ∧ s.lat.len.toNat % 4 = 0 ∧
        ∃ a, a < s.lat.len.toNat ∧ Memory.read s.ibuf a = none) ∧
    ∀ r, exec i s ≠ .refused r

/-! ## The completion step -/

/-- A step runs the decoded instruction (R101, R124): where the latched command is an instruction, an operation is
running, and nothing or the engine is scheduled, the step is `exec` of it, a scheduled turn being used up. That the
engine moves when nothing is scheduled is the model's choice (log 1); a scheduled host or reset edge moves instead. -/
def Obligations.StepRunsTheLatchedInstruction : Prop :=
  ∀ (s : State) (i : Instr), latchedCommand s = .legal i → s.statusBusy = true → s.inReset = false →
    (s.schedule = [] → step s = exec i s) ∧
    ∀ rest, s.schedule = .engine :: rest → step s = exec i { s with schedule := rest }

/-- The word that `withFetchWord` places is the one the next step runs, after an accepted START (R36, R121): the latches
hold the word's fields and the live IN_* registers. -/
def Obligations.PlacedWordRunsNext : Prop :=
  ∀ (s : State) (nbits w : Nat) (i : Instr), decodeTableWord nbits w = some i →
    step (s.withFetchWord nbits w) = exec i (s.withFetchWord nbits w) ∧
    (s.withFetchWord nbits w).lat.op = opField (tableWord nbits w) ∧
    (s.withFetchWord nbits w).lat.mode = modeField (tableWord nbits w) ∧
    (s.withFetchWord nbits w).lat.ch = s.inChannels ∧ (s.withFetchWord nbits w).lat.bits = s.inBits ∧
    (s.withFetchWord nbits w).lat.rate = s.inRate ∧ (s.withFetchWord nbits w).lat.len = s.inLen

/-- R124, R229: the completion step is the spec's pseudocode. The checks run in its order, the first that fails is
reported, and when none fails LAT.op (and LAT.mode for MONO) selects the operation. It is so for the instructions and
the illegal classes alike, on each of the engine's turns (`EngineMovesFrom`, log 1). -/
def Obligations.CompletionIsCheckThenDispatch : Prop :=
  ∀ s u : State, s.EngineMovesFrom u →
    step s =
      if 2 < u.lat.op.toNat then .next (u.failedWith 5 (u.lat.op.setWidth 32) 2)
      else if u.lat.op = 0#4 ∧ u.lat.ch ≠ 2#16 then .next (u.failedWith 3 (u.lat.ch.setWidth 32) 2)
      else if u.lat.op = 0#4 ∧ 3 < u.lat.mode.toNat then .next (u.failedWith 4 (u.lat.mode.setWidth 32) 3)
      else if u.lat.op = 1#4 ∧ u.lat.ch ≠ 2#16 then .next (u.failedWith 3 (u.lat.ch.setWidth 32) 2)
      else if u.lat.op = 2#4 ∧ u.lat.bits ≠ 32#16 then .next (u.failedWith 1 (u.lat.bits.setWidth 32) 32)
      else if u.bufBytes < u.lat.len.toNat then .next (u.failedWith 6 u.lat.len (BitVec.ofNat 32 u.bufBytes))
      else if u.lat.len.toNat % 4 ≠ 0 then .next (u.failedWith 2 u.lat.len 4)
      else if u.lat.op = 0#4 then
        (if u.lat.mode = 0#8 then exec .monoLeft u
         else if u.lat.mode = 1#8 then exec .monoRight u
         else if u.lat.mode = 2#8 then exec .monoSum u
         else exec .monoDiff u)
      else if u.lat.op = 1#4 then exec .pack u
      else exec .unpack u

/-- R125, R221: a running operation ends in one completion step, with DONE = 1, BUSY = 0 and one of the codes 0 to 6,
unless a byte of its payload was never written. `EngineMovesFrom` says when it is the engine's turn (log 1). -/
def Obligations.RunningOperationEnds : Prop :=
  ∀ s u : State, s.EngineMovesFrom u →
    Memory.WrittenBelow s.ibuf s.lat.len.toNat →
    ∃ t, step s = .next t ∧ t.statusBusy = false ∧ t.statusDone = true ∧ t.statusErr.toNat ≤ 6

/-- R122: an operation's result is a function of the latches and of the latched payload alone. Two states that agree on
these (and are blocks of one size) end their operations alike: the same fault, or the same STATUS, error record, result
descriptor and output payload. OBUF at or beyond the new OUT_LEN keeps what it held. `EngineMovesFrom` says when it is
the engine's turn (log 1). -/
def Obligations.OperationsAreIsolated : Prop :=
  ∀ s s' u u' : State, s.EngineMovesFrom u → s'.EngineMovesFrom u' →
    s.lat = s'.lat → s.bufBytes = s'.bufBytes →
    (∀ a, a < s.lat.len.toNat → Memory.read s.ibuf a = Memory.read s'.ibuf a) →
    (∀ f, step s = .fault f → step s' = .fault f) ∧
    ∀ t, step s = .next t → ∃ t', step s' = .next t' ∧
      statusWord t = statusWord t' ∧ t.errFound = t'.errFound ∧ t.errExpected = t'.errExpected ∧
      t.outChannels = t'.outChannels ∧ t.outBits = t'.outBits ∧ t.outRate = t'.outRate ∧ t.outLen = t'.outLen ∧
      (∀ a, a < t.outLen.toNat → Memory.read t.obuf a = Memory.read t'.obuf a) ∧
      ∀ a, t.outLen.toNat ≤ a → Memory.read t.obuf a = Memory.read s.obuf a

/-! ## The arithmetic of the operations -/

/-- R151: what each mode selects, where `/ 2` on integers floors; every selected sample of in-range samples is in range,
so that storing its low 16 bits is exact. -/
def Obligations.SelectorFloorsAndNeverOverflows : Prop :=
  ∀ l r : Int,
    (monoSel .left l r = l ∧ monoSel .right l r = r ∧ monoSel .sumAvg l r = (l + r) / 2 ∧
      monoSel .diffAvg l r = (l - r) / 2) ∧
    ∀ mode : Mode, FitsS16 l → FitsS16 r →
      FitsS16 (monoSel mode l r) ∧ s16 (lo16 (monoSel mode l r)) = monoSel mode l r

/-- R184: PACK is a 16-bit adder and a 16-bit subtractor whose carries are discarded. -/
def Obligations.PackIsModularArithmetic : Prop :=
  ∀ p q : Half, packWord (s16 p) (s16 q) = (p + q) ++ (p - q)

/-- R185: the words PACK can make are exactly those whose bits 16 and 0 are equal, and each of them is the pack of its
own unpacking. -/
def Obligations.PackImageIsEqualParity : Prop :=
  ∀ w : Word,
    ((∃ l r, FitsS16 l ∧ FitsS16 r ∧ packWord l r = w) ↔ w.getLsbD 16 = w.getLsbD 0) ∧
    (w.getLsbD 16 = w.getLsbD 0 → packWord (unpackWord w).1 (unpackWord w).2 = w)

/-- R192, R193: both halves of every unpacked word are in range; on a word whose bits 16 and 0 are equal the halving is
exact, and on any other word it rounds toward minus infinity. -/
def Obligations.UnpackFitsAndFloors : Prop :=
  ∀ w : Word,
    FitsS16 (unpackWord w).1 ∧ FitsS16 (unpackWord w).2 ∧
    (w.getLsbD 16 = w.getLsbD 0 →
      2 * (unpackWord w).1 = s16 (sumLane w) + s16 (diffLane w) ∧
      2 * (unpackWord w).2 = s16 (sumLane w) - s16 (diffLane w)) ∧
    (w.getLsbD 16 ≠ w.getLsbD 0 →
      2 * (unpackWord w).1 = s16 (sumLane w) + s16 (diffLane w) - 1 ∧
      2 * (unpackWord w).2 = s16 (sumLane w) - s16 (diffLane w) - 1)

/-- R194: a frame comes back from PACK and UNPACK exactly when its sum and its difference fit in 16 bits; samples of
-16384 to 16383 suffice. -/
def Obligations.FrameRoundTrip : Prop :=
  ∀ l r : Int, FitsS16 l → FitsS16 r →
    (unpackWord (packWord l r) = (l, r) ↔ FitsS16 (l + r) ∧ FitsS16 (l - r)) ∧
    (-16384 ≤ l ∧ l ≤ 16383 ∧ -16384 ≤ r ∧ r ≤ 16383 → unpackWord (packWord l r) = (l, r))

/-- R195: PACK, a host copy of its output to IBUF, and UNPACK give the payload back byte for byte exactly when every
frame's sum and difference fit in 16 bits; the descriptor is 2 channels of 16 bits at the original rate. -/
def Obligations.StreamRoundTrip : Prop :=
  ∀ s t u : State, exec .pack s = .next t → t.statusErr = 0#4 →
    u.lat.bits = 32#16 → u.lat.len = s.lat.len → u.lat.rate = s.lat.rate → u.bufBytes = s.bufBytes →
    (∀ a, a < s.lat.len.toNat → Memory.read u.ibuf a = Memory.read t.obuf a) →
    ∃ v, exec .unpack u = .next v ∧ v.outChannels = 2 ∧ v.outBits = 16 ∧ v.outRate = s.lat.rate ∧
      v.outLen = s.lat.len ∧ v.statusErr = 0 ∧
      ((∀ a, a < s.lat.len.toNat → Memory.read v.obuf a = Memory.read s.ibuf a) ↔
        ∀ k, k < s.lat.len.toNat / 4 → ∀ l r, readFrame s.ibuf k = some (l, r) → FitsS16 (l + r) ∧ FitsS16 (l - r))

/-! ## The host's register accesses -/

/-- A step makes the host's next access: where the host moves (it is scheduled, or nothing is and no operation can
complete), the step is that access with the list one shorter. -/
def Obligations.StepMakesTheHostsAccess : Prop :=
  ∀ (s : State) (h : HostOp) (rest : List HostOp), s.hostOps = h :: rest →
    (s.schedule = [] → (s.statusBusy = false ∨ s.inReset = true) →
      step s = hostAccess h { s with hostOps := rest }) ∧
    ∀ turns, s.schedule = .host :: turns → step s = hostAccess h { s with hostOps := rest, schedule := turns }

/-- R121: a START written while BUSY = 0 is accepted: it latches CMD and IN_*, sets BUSY, clears DONE, ERR and the error
record, and changes nothing else; the hazard window of R253 and R254 opens (`doneUnseen`, log 7), and
the model counts the operation (log 20). -/
def Obligations.AcceptedStartLatches : Prop :=
  ∀ (s : State) (v : Word), s.inReset = false → s.statusBusy = false → v.getLsbD 0 = true →
    hostAccess (.wr 0x00 4 v) s = .next
      { s with
        lat := { op := s.cmdOp, mode := s.cmdMode, ch := s.inChannels, bits := s.inBits, rate := s.inRate, len := s.inLen },
        statusBusy := true, statusDone := false, statusErr := 0, errFound := 0, errExpected := 0, doneUnseen := true,
        starts := s.starts + 1 }

/-- R121, R23: a write of CTRL with bit 0 clear, or while BUSY = 1, has no effect. -/
def Obligations.OtherCtrlWritesHaveNoEffect : Prop :=
  ∀ (s : State) (v : Word), s.inReset = false → (s.statusBusy = true ∨ v.getLsbD 0 = false) →
    hostAccess (.wr 0x00 4 v) s = .next s

/-- R121: a write of CMD or IN_* stores its writable fields, busy or not, and changes nothing else; a write of a
read-only register or of a reserved offset has no effect. -/
def Obligations.RegisterWritesStoreTheirFields : Prop :=
  ∀ (s : State) (v : Word), s.inReset = false →
    hostAccess (.wr 0x04 4 v) s = .next { s with cmdOp := v.extractLsb' 0 4, cmdMode := v.extractLsb' 8 8 } ∧
    hostAccess (.wr 0x08 4 v) s = .next { s with inChannels := v.extractLsb' 0 16 } ∧
    hostAccess (.wr 0x0C 4 v) s = .next { s with inBits := v.extractLsb' 0 16 } ∧
    hostAccess (.wr 0x10 4 v) s = .next { s with inRate := v } ∧
    hostAccess (.wr 0x14 4 v) s = .next { s with inLen := v } ∧
    ∀ off, off % 4 = 0 → 0x18 ≤ off → off ≤ 0x3C → hostAccess (.wr off 4 v) s = .next s

/-- R22, R24 to R35, R61: what a read of each register returns while BUSY = 0, its reserved bits 0; CTRL and the
reserved offsets read 0; ERR_* and OUT_* once no DONE = 1 is unseen (R253). A read changes nothing but the list of what
has been read, and a read of STATUS with DONE = 1 ends the hazard window (R71 item 2, R72; log 7). -/
def Obligations.RegisterReadsReturnTheirFields : Prop :=
  ∀ s : State, s.inReset = false → s.statusBusy = false →
    (∀ off v, (off, v) ∈
        [(0x00, 0#32), (0x04, (s.cmdMode.setWidth 32 <<< 8) ||| s.cmdOp.setWidth 32),
         (0x08, s.inChannels.setWidth 32), (0x0C, s.inBits.setWidth 32), (0x10, s.inRate), (0x14, s.inLen),
         (0x34, 0#32), (0x38, 0#32), (0x3C, 0#32)] →
      hostAccess (.rd off 4) s = .next { s with reads := s.reads ++ [v] }) ∧
    hostAccess (.rd 0x18 4) s = .next
      { s with
        reads := s.reads ++ [(s.statusErr.setWidth 32 <<< 8) ||| if s.statusDone then 2#32 else 0#32],
        doneUnseen := s.doneUnseen && !s.statusDone } ∧
    (s.doneUnseen = false → ∀ off v, (off, v) ∈
        [(0x1C, s.errFound), (0x20, s.errExpected), (0x24, s.outChannels.setWidth 32), (0x28, s.outBits.setWidth 32),
         (0x2C, s.outRate), (0x30, s.outLen)] →
      hostAccess (.rd off 4) s = .next { s with reads := s.reads ++ [v] })

/-- R71 item 3: while BUSY = 1, STATUS reads BUSY = 1, DONE = 0, ERR = 0 and the error record reads 0 (in every state
that keeps the invariant), CMD and IN_* read their current contents, CTRL and the reserved offsets read 0 (R120). -/
def Obligations.ReadsWhileBusy : Prop :=
  ∀ s : State, s.Inv → s.inReset = false → s.statusBusy = true →
    (∀ off v, (off, v) ∈
        [(0x18, 1#32), (0x1C, 0#32), (0x20, 0#32), (0x04, (s.cmdMode.setWidth 32 <<< 8) ||| s.cmdOp.setWidth 32),
         (0x08, s.inChannels.setWidth 32), (0x0C, s.inBits.setWidth 32), (0x10, s.inRate), (0x14, s.inLen),
         (0x00, 0#32), (0x34, 0#32), (0x38, 0#32), (0x3C, 0#32)] →
      hostAccess (.rd off 4) s = .next { s with reads := s.reads ++ [v] })

/-- R71 item 3, R37: a read of OUT_* or of OBUF while BUSY = 1 returns any value and stops for nothing. The value is
the model's free draw (log 6): the low bytes, as many as the access reads, of the constant `Config.busyRead` of this
draw, of which nothing is known. Nothing changes but the list of what has been read and the count of draws. -/
def Obligations.OutputReadsWhileBusyAreFree : Prop :=
  ∀ s : State, s.inReset = false → s.statusBusy = true →
    (∀ off, off ∈ [0x24, 0x28, 0x2C, 0x30] →
      hostAccess (.rd off 4) s = .next
        { s with reads := s.reads ++ [leWord (leBytes 4 (Config.busyRead s.draws))], draws := s.draws + 1 }) ∧
    ∀ a n, n ∈ [1, 2, 4] → a + n ≤ s.bufBytes →
      hostAccess (.rdb .obuf a n) s = .next
        { s with reads := s.reads ++ [leWord (leBytes n (Config.busyRead s.draws))], draws := s.draws + 1 }

/-- R61: a register access that is not 32 bits wide, not aligned, or above 0x3C gets a bus error, which the model
refuses; every other register access is answered. The form is checked first, also while reset is asserted (log 8). -/
def Obligations.BadRegisterAccessIsRefused : Prop :=
  ∀ (s : State) (off width : Nat) (v : Word),
    (¬ (width = 4 ∧ off % 4 = 0 ∧ off ≤ 0x3C) →
      hostAccess (.rd off width) s = .refused .busError ∧ hostAccess (.wr off width v) s = .refused .busError) ∧
    (width = 4 ∧ off % 4 = 0 ∧ off ≤ 0x3C →
      (∃ t, hostAccess (.rd off width) s = .next t) ∧ ∃ t, hostAccess (.wr off width v) s = .next t)

/-! ## The host's buffer accesses -/

/-- R62, R64, R123: a legal write to IBUF while BUSY = 0 and no DONE = 1 is unseen (R254) stores the low n bytes of
the value, and a later read of the same bytes gives them back; every other byte of IBUF and everything else is
unchanged. -/
def Obligations.IbufWriteThenRead : Prop :=
  ∀ (s : State) (a n : Nat) (v : Word), s.inReset = false → s.statusBusy = false → s.doneUnseen = false →
    n ∈ [1, 2, 4] → a + n ≤ s.bufBytes →
    ∃ m, hostAccess (.wrb .ibuf a n v) s = .next { s with ibuf := m } ∧
      (∀ x, x < a ∨ a + n ≤ x → Memory.read m x = Memory.read s.ibuf x) ∧
      (∀ j, j < n → Memory.read m (a + j) = some (v.extractLsb' (8 * j) 8)) ∧
      hostAccess (.rdb .ibuf a n) { s with ibuf := m } =
        .next { s with ibuf := m, reads := s.reads ++ [BitVec.ofNat 32 (v.toNat % 2 ^ (8 * n))] }

/-- R64: mixed-width views are little-endian. After a 4-byte write to IBUF, its two 2-byte halves and its four bytes
read as the slices of the value. -/
def Obligations.MixedWidthViews : Prop :=
  ∀ (m : Memory) (a : Nat) (v : Word),
    memRead (Memory.read (memWrite m a 4 v)) a 4 = some v ∧
    memRead (Memory.read (memWrite m a 4 v)) a 2 = some ((v.extractLsb' 0 16).setWidth 32) ∧
    memRead (Memory.read (memWrite m a 4 v)) (a + 2) 2 = some ((v.extractLsb' 16 16).setWidth 32) ∧
    ∀ j, j < 4 → memRead (Memory.read (memWrite m a 4 v)) (a + j) 1 = some ((v.extractLsb' (8 * j) 8).setWidth 32)

/-- R38, R62, R123, R250: a legal read of OBUF while BUSY = 0 and no DONE = 1 is unseen (R253) returns its bytes. A byte
that nothing has written since reset and that an operation interrupted by that reset may have written has the model's free
value of its address (log 21). The read is the model fault UnwrittenOutput exactly when one of its bytes is neither. -/
def Obligations.ObufReads : Prop :=
  ∀ (s : State) (a n : Nat), s.inReset = false → s.statusBusy = false → s.doneUnseen = false → n ∈ [1, 2, 4] →
    a + n ≤ s.bufBytes →
    ((∀ j, j < n → (Memory.read s.obuf (a + j)).isSome) →
      ∃ v, memRead (Memory.read s.obuf) a n = some v ∧
        hostAccess (.rdb .obuf a n) s = .next { s with reads := s.reads ++ [v] }) ∧
    ((∀ j, j < n → (Memory.read s.obuf (a + j)).isSome ∨ a + j < s.abandonedLen) →
      ∃ v : Word, v.toNat < 2 ^ (8 * n) ∧
        (∀ j, j < n →
          v.extractLsb' (8 * j) 8 = (Memory.read s.obuf (a + j)).getD (Config.abandonedObuf s.epoch (a + j))) ∧
        hostAccess (.rdb .obuf a n) s = .next { s with reads := s.reads ++ [v] }) ∧
    ((∃ j, j < n ∧ Memory.read s.obuf (a + j) = none ∧ s.abandonedLen ≤ a + j) →
      hostAccess (.rdb .obuf a n) s = .fault .unwrittenOutput)

/-- R62, R72, R254: a legal host write to OBUF is ignored at any time, and one to IBUF while BUSY = 1 or while the host
has yet to see DONE = 1 is the model fault BufferHazard. -/
def Obligations.BufferOwnership : Prop :=
  ∀ (s : State) (a n : Nat) (v : Word), s.inReset = false → n ∈ [1, 2, 4] → a + n ≤ s.bufBytes →
    hostAccess (.wrb .obuf a n v) s = .next s ∧
    (s.statusBusy = true ∨ s.doneUnseen = true → hostAccess (.wrb .ibuf a n v) s = .fault .bufferHazard)

/-- R62: a buffer access of another width, or one that passes the end of the buffer, gets a bus error, which the model
refuses. The form is checked first, also while reset is asserted or BUSY = 1 (log 8). -/
def Obligations.BadBufferAccessIsRefused : Prop :=
  ∀ (s : State) (b : Buffer) (a n : Nat) (v : Word), ¬ (n ∈ [1, 2, 4] ∧ a + n ≤ s.bufBytes) →
    hostAccess (.rdb b a n) s = .refused .busError ∧ hostAccess (.wrb b a n v) s = .refused .busError

/-- R70: no access but an accepted START has an effect on the engine's side: STATUS, the error record, the result
descriptor, the latches and OBUF stay as they are. -/
def Obligations.OnlyStartTouchesTheEnginesState : Prop :=
  ∀ (s t : State) (h : HostOp), hostAccess h s = .next t →
    (∀ v, h = .wr 0x00 4 v → v.getLsbD 0 = true → s.statusBusy = true) →
    statusWord t = statusWord s ∧ t.errFound = s.errFound ∧ t.errExpected = s.errExpected ∧
      t.outChannels = s.outChannels ∧ t.outBits = s.outBits ∧ t.outRate = s.outRate ∧ t.outLen = s.outLen ∧
      t.lat = s.lat ∧ t.obuf = s.obuf ∧ t.inReset = s.inReset ∧ t.bufBytes = s.bufBytes

/-! ## WAIT -/

/-- R129: one poll of WAIT reads STATUS; the host goes on when DONE = 1, which it has then seen (log 7), and the WAIT
stays at the head of its list when DONE = 0. -/
def Obligations.WaitPollsDone : Prop :=
  ∀ s : State, s.inReset = false →
    hostAccess .wait s = .next
      { s with
        reads := s.reads ++ [statusWord s], doneUnseen := s.doneUnseen && !s.statusDone,
        hostOps := if s.statusDone then s.hostOps else .wait :: s.hostOps }

/-- R129: a WAIT with no START outstanding never ends: however many steps are run, the WAIT is still the host's next
access and DONE is still 0. -/
def Obligations.WaitWithoutStartHangs : Prop :=
  ∀ (s : State) (rest : List HostOp), s.schedule = [] → s.inReset = false → s.statusBusy = false →
    s.statusDone = false → s.hostOps = .wait :: rest →
    ∀ k, ∃ t, Host.Core.run Sys2Proof.core k s = .next t ∧ t.hostOps = .wait :: rest ∧ t.statusDone = false

/-- R125, R129: from an idle block, START and WAIT end, and WAIT's read has DONE = 1, when the payload that IN_LEN names
has been written. That they take three steps and one poll is the model's choice: with nothing scheduled the engine
completes before WAIT polls (log 1). -/
def Obligations.StartThenWaitEnds : Prop :=
  ∀ (s : State) (rest : List HostOp), s.schedule = [] → s.inReset = false → s.statusBusy = false →
    s.hostOps = pseudoStart ++ .wait :: rest → Memory.WrittenBelow s.ibuf s.inLen.toNat →
    ∃ t v, Host.Core.run Sys2Proof.core 3 s = .next t ∧ t.hostOps = rest ∧ t.statusDone = true ∧
      t.statusBusy = false ∧ t.doneUnseen = false ∧ t.reads = s.reads ++ [v] ∧ v.getLsbD 1 = true ∧
      t.lat.len = s.inLen ∧ t.lat.op = s.cmdOp ∧ t.lat.mode = s.cmdMode

/-! ## Reset -/

/-- R251: the reset value of every register and the written bit of every buffer byte; a START straight after reset runs
MONO.LEFT and ends with CHANNEL_MISMATCH, since IN_CHANNELS is 0. -/
def Obligations.ResetValues : Prop :=
  (readReg State.reset 0x00 = 0 ∧ State.reset.cmdOp = 0 ∧ State.reset.cmdMode = 0 ∧ State.reset.inChannels = 0 ∧
    State.reset.inBits = 0 ∧ State.reset.inRate = 0 ∧ State.reset.inLen = 0 ∧ statusWord State.reset = 0 ∧
    State.reset.errFound = 0 ∧ State.reset.errExpected = 0 ∧ State.reset.outChannels = 0 ∧ State.reset.outBits = 0 ∧
    State.reset.outRate = 0 ∧ State.reset.outLen = 0) ∧
  (∀ a, Memory.read State.reset.ibuf a = none ∧ Memory.read State.reset.obuf a = none) ∧
  ∃ t, hostAccess (.wr 0x00 4 1) State.reset = .next t ∧ latchedCommand t = .legal .monoLeft ∧
    step t = .next (t.failedWith 3 0 2)

/-- R250: asserting reset changes the level of its input alone; while it is asserted, legal accesses have no effect and
reads return 0, and an operation in progress does not complete; releasing a reset that is not asserted is no event
(log 9). -/
def Obligations.AssertedResetHoldsTheBlock : Prop :=
  ∀ s : State,
    takeTurn .assertReset s = .next { s with inReset := true } ∧
    (s.inReset = true →
      (∀ off v, off % 4 = 0 → off ≤ 0x3C →
        hostAccess (.rd off 4) s = .next { s with reads := s.reads ++ [0] } ∧ hostAccess (.wr off 4 v) s = .next s) ∧
      (∀ b a n v, n ∈ [1, 2, 4] → a + n ≤ s.bufBytes →
        hostAccess (.rdb b a n) s = .next { s with reads := s.reads ++ [0] } ∧ hostAccess (.wrb b a n v) s = .next s) ∧
      takeTurn .engine s = .next s) ∧
    (s.inReset = false → takeTurn .releaseReset s = .next s)

/-- R250, R251: when reset is released every register takes its reset value, every buffer byte is unwritten and the
block is idle, whatever was running. The OBUF bytes that an operation in progress may have written, which is its result
payload if its checks pass, then read as any value: the model's free values (R250 and 93; log 21). The latches' value 0
is the model's choice (log 3), and that the buffer size and the model's own fields stay is logs 1, 2, 5, 6, 12 and 20; the
hazard window is closed (log 7). -/
def Obligations.ReleasedResetRestoresResetValues : Prop :=
  ∀ s : State, s.inReset = true →
    ∃ t, takeTurn .releaseReset s = .next t ∧
      t = { State.reset with
            abandonedLen :=
              if s.statusBusy = true then
                match latchedCommand s with
                | .legal i =>
                  if check i s.lat s.bufBytes = none then
                    (if i = .pack ∨ i = .unpack then s.lat.len.toNat else s.lat.len.toNat / 2)
                  else 0
                | .monoInvalid _ => 0
                | .illegal _ => 0
              else 0,
            bufBytes := s.bufBytes, hostOps := s.hostOps, schedule := s.schedule, reads := s.reads, starts := s.starts,
            draws := s.draws, epoch := s.epoch + 1 } ∧
      ∀ a n, n ∈ [1, 2, 4] → a + n ≤ t.abandonedLen →
        ∃ v : Word, v.toNat < 2 ^ (8 * n) ∧
          (∀ j, j < n → v.extractLsb' (8 * j) 8 = Config.abandonedObuf t.epoch (a + j)) ∧
          hostAccess (.rdb .obuf a n) t = .next { t with reads := t.reads ++ [v] }

/-! ## The whole machine -/

/-- The state after reset keeps the invariant. -/
def Obligations.ResetHasInv : Prop := State.reset.Inv

/-- Every step keeps the invariant: buffers canonical and inside BUF_BYTES (R60), what an interrupted operation may have
written inside it too, BUSY and DONE never both 1, ERR at most 6, DONE unseen while an operation runs, the error record
and the result descriptor as STATUS says, and every byte of the output payload written. -/
def Obligations.EveryStepKeepsInv : Prop :=
  ∀ s t : State, s.Inv → step s = .next t → t.Inv

/-- R70, R240: the block wakes from idle only through an accepted START: the host wrote CTRL with bit 0 set, and the
latches are what CMD and IN_* held. -/
def Obligations.OnlyStartWakesTheBlock : Prop :=
  ∀ s t : State, step s = .next t → s.statusBusy = false → t.statusBusy = true →
    ∃ v rest, s.hostOps = .wr 0x00 4 v :: rest ∧ v.getLsbD 0 = true ∧ s.inReset = false ∧
      t.lat = { op := s.cmdOp, mode := s.cmdMode, ch := s.inChannels, bits := s.inBits, rate := s.inRate, len := s.inLen }

/-- R36, R75: the command of a running operation cannot be changed: while BUSY stays 1, no step changes a latch. -/
def Obligations.RunningCommandIsFixed : Prop :=
  ∀ s t : State, step s = .next t → s.statusBusy = true → t.statusBusy = true → t.lat = s.lat

/-- BUF_BYTES is the implementation's (R7, R60): no step changes the field that holds it (log 2). -/
def Obligations.BufferSizeNeverChanges : Prop :=
  ∀ s t : State, step s = .next t → t.bufBytes = s.bufBytes

/-- R72, R128: the output payload of a finished operation can be read: in a state that keeps the invariant, with
BUSY = 0, reset released and DONE = 1 seen (R253), no legal read of OBUF below OUT_LEN stops. -/
def Obligations.OutputPayloadIsReadable : Prop :=
  ∀ (s : State) (a n : Nat), s.Inv → s.inReset = false → s.statusBusy = false → s.doneUnseen = false → n ∈ [1, 2, 4] →
    a + n ≤ s.outLen.toNat →
    ∃ v, hostAccess (.rdb .obuf a n) s = .next { s with reads := s.reads ++ [v] } ∧
      memRead (Memory.read s.obuf) a n = some v

/-! ## The hazard window and the reads of IBUF -/

/-- R253, R70: after an operation has completed and until the host has seen DONE = 1, a read of OUT_*, ERR_* or OBUF
returns an unspecified value and stops for nothing. The value is the model's free value of that operation and register,
or byte by byte of that operation and OBUF address (logs 7 and 20), of which nothing is known. Nothing changes but the
list of what has been read. -/
def Obligations.ResultReadsBeforeDoneIsSeenAreFree : Prop :=
  ∀ s : State, s.inReset = false → s.statusBusy = false → s.doneUnseen = true →
    (∀ off, off ∈ [0x1C, 0x20, 0x24, 0x28, 0x2C, 0x30] →
      hostAccess (.rd off 4) s = .next { s with reads := s.reads ++ [Config.unseenReg s.starts off] }) ∧
    ∀ a n, n ∈ [1, 2, 4] → a + n ≤ s.bufBytes →
      ∃ v : Word, v.toNat < 2 ^ (8 * n) ∧
        (∀ j, j < n → v.extractLsb' (8 * j) 8 = Config.unseenObuf s.starts (a + j)) ∧
        hostAccess (.rdb .obuf a n) s = .next { s with reads := s.reads ++ [v] }

/-- R72, R253, R254: the hazard window that an accepted START opened closes only when the host reads STATUS, itself or
in WAIT, with DONE = 1, or when reset is released (log 7). -/
def Obligations.HazardWindowClosesOnlyWhenDoneIsSeen : Prop :=
  ∀ s t : State, step s = .next t → s.doneUnseen = true → t.doneUnseen = false →
    (s.statusDone = true ∧ s.inReset = false ∧ ∃ rest, s.hostOps = .rd 0x18 4 :: rest ∨ s.hostOps = .wait :: rest) ∨
    (s.inReset = true ∧ ∃ rest, s.schedule = .releaseReset :: rest)

/-- R62, R71 item 3, R72: a legal read of IBUF is answered whether an operation runs or not and whatever the host has
seen. Each byte it returns is what IBUF holds there, and where nothing has written it the model's free value of that
address, the same at every read until the next reset (log 5). -/
def Obligations.IbufReads : Prop :=
  ∀ (s : State) (a n : Nat), s.inReset = false → n ∈ [1, 2, 4] → a + n ≤ s.bufBytes →
    ∃ v : Word, v.toNat < 2 ^ (8 * n) ∧
      (∀ j, j < n →
        v.extractLsb' (8 * j) 8 = (Memory.read s.ibuf (a + j)).getD (Config.unwrittenIbuf s.epoch (a + j))) ∧
      hostAccess (.rdb .ibuf a n) s = .next { s with reads := s.reads ++ [v] } ∧
      hostAccess (.rdb .ibuf a n) { s with reads := s.reads ++ [v] } = .next { s with reads := s.reads ++ [v, v] }

/-- R251, log 5: the free values of the IBUF bytes that nothing has written are drawn anew only by the release of an
asserted reset; every other step leaves the count they depend on. -/
def Obligations.UnwrittenIbufIsRedrawnOnlyByReset : Prop :=
  ∀ s t : State, step s = .next t →
    t.epoch = if s.inReset ∧ s.schedule.head? = some .releaseReset then s.epoch + 1 else s.epoch

/-- R70: while BUSY = 0 every read is idempotent. A read made again after any reads, with no write between, returns the
same value and changes nothing but the list of what has been read. It is so for specified and unspecified values alike;
the one premise is that none of the reads between is the sight of DONE = 1 that ends the hazard window, where R71 item 2
and R253 give the result its specified value (logs 7 and 20). -/
def Obligations.ReadsAreIdempotentWhileIdle : Prop :=
  ∀ (s t u : State) (h : HostOp) (hs : List HostOp), s.statusBusy = false → h.isRead = true →
    hostAccess h s = .next t → ReadsLead t hs u → u.doneUnseen = t.doneUnseen →
    ∃ v, t.reads = s.reads ++ [v] ∧ hostAccess h u = .next { u with reads := u.reads ++ [v] }
end

