-- ==== Sys2Proof/Laws/Memory.lean ====
section
/-! SUPPORT. The laws of the buffers: a read after a write, the canonical form, and runs of little-endian bytes. -/

namespace Sys2Proof.Machine

/-! ## One byte -/

@[simp] theorem Memory.read_nil (a : Nat) : Memory.read [] a = none := rfl

theorem Memory.read_cons (c : Nat) (d : Byte) (m : Memory) (a : Nat) :
    Memory.read ((c, d) :: m) a = if a = c then some d else Memory.read m a := rfl

/-- A read gives what the last write of that address gave, and a write leaves every other address alone. -/
@[simp] theorem Memory.read_write (m : Memory) (a : Nat) (b : Byte) (x : Nat) :
    Memory.read (Memory.write m a b) x = if x = a then some b else Memory.read m x := by
  induction m with
  | nil => simp [Memory.write, Memory.read_cons]
  | cons c m ih =>
    obtain ⟨c, d⟩ := c
    simp only [Memory.write]
    split
    · simp [Memory.read_cons]
    · split
      · subst c; simp only [Memory.read_cons]; split <;> rfl
      · simp only [Memory.read_cons, ih]; split <;> split <;> first | rfl | omega

theorem Memory.wfFrom_mono (m : Memory) {lo lo' : Nat} (h : lo' ≤ lo) (hm : Memory.wfFrom lo m = true) :
    Memory.wfFrom lo' m = true := by
  cases m with
  | nil => rfl
  | cons c m =>
    simp only [Memory.wfFrom, Bool.and_eq_true, decide_eq_true_eq] at hm ⊢
    exact ⟨by omega, hm.2⟩

theorem Memory.wfFrom_write (m : Memory) (lo a : Nat) (b : Byte) (ha : lo ≤ a) (hm : Memory.wfFrom lo m = true) :
    Memory.wfFrom lo (Memory.write m a b) = true := by
  induction m generalizing lo with
  | nil => simp [Memory.write, Memory.wfFrom, ha]
  | cons c m ih =>
    obtain ⟨c, d⟩ := c
    simp only [Memory.wfFrom, Bool.and_eq_true, decide_eq_true_eq] at hm
    simp only [Memory.write]
    split
    · simp only [Memory.wfFrom, Bool.and_eq_true, decide_eq_true_eq]
      exact ⟨ha, by omega, hm.2⟩
    · split
      · subst c; simp only [Memory.wfFrom, Bool.and_eq_true, decide_eq_true_eq]; exact hm
      · simp only [Memory.wfFrom, Bool.and_eq_true, decide_eq_true_eq]
        exact ⟨hm.1, ih _ (by omega) hm.2⟩

/-- A write keeps the canonical form. -/
theorem Memory.wf_write (m : Memory) (a : Nat) (b : Byte) (hm : Memory.wf m = true) :
    Memory.wf (Memory.write m a b) = true :=
  Memory.wfFrom_write m 0 a b (Nat.zero_le a) hm

theorem Memory.within_write {m : Memory} {n a : Nat} (b : Byte) (ha : a < n) (hm : Memory.Within m n) :
    Memory.Within (Memory.write m a b) n := by
  induction m with
  | nil => intro c hc; simp [Memory.write] at hc; subst hc; exact ha
  | cons c m ih =>
    obtain ⟨c, d⟩ := c
    have hc : c < n := hm (c, d) (by simp)
    have hm' : Memory.Within m n := fun x hx => hm x (by simp [hx])
    simp only [Memory.write]
    split
    · intro x hx
      rcases List.mem_cons.1 hx with rfl | hx
      · exact ha
      · exact hm x hx
    · split
      · intro x hx
        rcases List.mem_cons.1 hx with rfl | hx
        · exact ha
        · exact hm' x hx
      · intro x hx
        rcases List.mem_cons.1 hx with rfl | hx
        · exact hc
        · exact ih hm' x hx

/-! ## Runs of bytes -/

theorem Memory.wf_storeBytes (m : Memory) (a : Nat) (bs : List Byte) (hm : Memory.wf m = true) :
    Memory.wf (storeBytes m a bs) = true := by
  induction bs generalizing m a with
  | nil => exact hm
  | cons b bs ih => exact ih _ _ (Memory.wf_write m a b hm)

theorem Memory.within_storeBytes {m : Memory} {n a : Nat} (bs : List Byte) (ha : a + bs.length ≤ n)
    (hm : Memory.Within m n) : Memory.Within (storeBytes m a bs) n := by
  induction bs generalizing m a with
  | nil => exact hm
  | cons b bs ih =>
    simp only [List.length_cons] at ha
    exact ih (by omega) (Memory.within_write b (by omega) hm)

/-- A store changes exactly its run of bytes, and there it leaves the bytes stored. -/
theorem Memory.read_storeBytes (m : Memory) (a : Nat) (bs : List Byte) (x : Nat) :
    Memory.read (storeBytes m a bs) x =
      if a ≤ x ∧ x < a + bs.length then bs[x - a]? else Memory.read m x := by
  induction bs generalizing m a with
  | nil => simp [storeBytes]
  | cons b bs ih =>
    simp only [storeBytes, ih, Memory.read_write, List.length_cons]
    by_cases h1 : a + 1 ≤ x ∧ x < a + 1 + bs.length
    · rw [if_pos h1, if_pos (by omega)]
      obtain ⟨j, rfl⟩ : ∃ j, x = a + 1 + j := ⟨x - (a + 1), by omega⟩
      rw [show a + 1 + j - (a + 1) = j by omega, show a + 1 + j - a = j + 1 by omega]
      simp
    · rw [if_neg h1]
      by_cases h2 : x = a
      · subst h2; simp
      · rw [if_neg h2, if_neg (by omega)]

theorem storeBytes_append (m : Memory) (a : Nat) (bs cs : List Byte) :
    storeBytes m a (bs ++ cs) = storeBytes (storeBytes m a bs) (a + bs.length) cs := by
  induction bs generalizing m a with
  | nil => simp [storeBytes]
  | cons b bs ih => simp [storeBytes, ih, Nat.add_assoc, Nat.add_comm 1]

@[simp] theorem leBytes_length (n : Nat) (v : Word) : (leBytes n v).length = n := by
  induction n generalizing v with
  | zero => rfl
  | succ n ih => simp [leBytes, ih]

/-- A load has a value exactly when each of its bytes has one. -/
theorem loadBytes_isSome (byteAt : Nat → Option Byte) (a n : Nat) :
    (loadBytes byteAt a n).isSome ↔ ∀ j, j < n → (byteAt (a + j)).isSome := by
  induction n generalizing a with
  | zero => simp [loadBytes]
  | succ n ih =>
    simp only [loadBytes]
    cases hb : byteAt a with
    | none => simpa using ⟨0, by omega, by simp [hb]⟩
    | some b =>
      have := ih (a + 1)
      cases hl : loadBytes byteAt (a + 1) n with
      | none =>
        simp only [hl, Option.isSome_none, Bool.false_eq_true, false_iff, not_forall] at this ⊢
        obtain ⟨j, hj, hn⟩ := this
        exact ⟨j + 1, by omega, by rwa [← Nat.add_assoc, Nat.add_right_comm]⟩
      | some bs =>
        simp only [hl, Option.isSome_some, true_iff] at this ⊢
        intro j hj
        cases j with
        | zero => simp [hb]
        | succ j => have := this j (by omega); rwa [← Nat.add_assoc, Nat.add_right_comm]

/-- A load's result depends on the bytes it reads alone. -/
theorem loadBytes_congr {f g : Nat → Option Byte} {a n : Nat} (h : ∀ j, j < n → f (a + j) = g (a + j)) :
    loadBytes f a n = loadBytes g a n := by
  induction n generalizing a with
  | zero => rfl
  | succ n ih =>
    have h0 : f a = g a := h 0 (by omega)
    have h1 : loadBytes f (a + 1) n = loadBytes g (a + 1) n :=
      ih fun j hj => by have := h (j + 1) (by omega); rwa [← Nat.add_assoc, Nat.add_right_comm] at this
    simp only [loadBytes, h0, h1]

theorem memRead_congr {f g : Nat → Option Byte} {a n : Nat} (h : ∀ j, j < n → f (a + j) = g (a + j)) :
    memRead f a n = memRead g a n := by
  simp only [memRead, loadBytes_congr h]

theorem memRead_isSome (byteAt : Nat → Option Byte) (a n : Nat) :
    (memRead byteAt a n).isSome ↔ ∀ j, j < n → (byteAt (a + j)).isSome := by
  simp [memRead, loadBytes_isSome]

/-- A load of bytes that are there gives them. -/
theorem loadBytes_eq (f : Nat → Option Byte) (a : Nat) (bs : List Byte)
    (h : ∀ j, j < bs.length → f (a + j) = bs[j]?) : loadBytes f a bs.length = some bs := by
  induction bs generalizing a with
  | nil => rfl
  | cons b bs ih =>
    have h0 : f a = some b := by simpa using h 0 (by simp)
    have h1 := ih (a + 1) fun j hj => by
      have := h (j + 1) (by simp; omega)
      rw [← Nat.add_assoc, Nat.add_right_comm] at this
      simpa using this
    simp [loadBytes, h0, h1]

/-- The little-endian value of the low `n` bytes of `v` is `v` modulo 2^(8n). -/
theorem leWord_leBytes_toNat (n : Nat) (v : Word) : (leWord (leBytes n v)).toNat = v.toNat % 2 ^ (8 * n) := by
  induction n generalizing v with
  | zero => simp [leBytes, leWord]; omega
  | succ n ih =>
    have hv : v.toNat < 2 ^ 32 := v.isLt
    have key : leWord (leBytes (n + 1) v) = (leWord (leBytes n (v >>> 8)) <<< 8) ||| (v.setWidth 8).setWidth 32 := rfl
    rw [key, BitVec.toNat_or, BitVec.toNat_shiftLeft, ih]
    have hsh : (v >>> 8).toNat = v.toNat / 256 := by simp [BitVec.toNat_ushiftRight, Nat.shiftRight_eq_div_pow]
    have hlow : ((v.setWidth 8).setWidth 32).toNat = v.toNat % 256 := by
      simp [BitVec.toNat_setWidth]; omega
    rw [hsh, hlow]
    have hsmall : v.toNat / 256 % 2 ^ (8 * n) < 2 ^ 24 := lt_of_le_of_lt (Nat.mod_le _ _) (by omega)
    rw [Nat.shiftLeft_eq, Nat.mod_eq_of_lt (by omega), show (2 : Nat) ^ 8 = 256 by norm_num, Nat.mul_comm,
      show (256 : Nat) = 2 ^ 8 by norm_num, ← Nat.two_pow_add_eq_or_of_lt (Nat.mod_lt _ (by norm_num))]
    rw [show 8 * (n + 1) = 8 + 8 * n by ring, Nat.pow_add, Nat.mod_mul]
    ring

/-- What was written is read back: the low `n` bytes of the value, at any width (spec/20_memory.md R64). -/
theorem memRead_memWrite_toNat (m : Memory) (a n : Nat) (v : Word) :
    (memRead (Memory.read (memWrite m a n v)) a n).map BitVec.toNat = some (v.toNat % 2 ^ (8 * n)) := by
  have h := loadBytes_eq (Memory.read (memWrite m a n v)) a (leBytes n v) fun j hj => by
    rw [memWrite, Memory.read_storeBytes, if_pos (by omega)]; congr 1; omega
  rw [leBytes_length] at h
  simp [memRead, h, leWord_leBytes_toNat]

/-- A write leaves every byte outside its run alone. -/
theorem Memory.read_memWrite_of_outside (m : Memory) (a n : Nat) (v : Word) (x : Nat) (h : x < a ∨ a + n ≤ x) :
    Memory.read (memWrite m a n v) x = Memory.read m x := by
  rw [memWrite, Memory.read_storeBytes, if_neg (by simp; omega)]

theorem Memory.wf_memWrite (m : Memory) (a n : Nat) (v : Word) (hm : Memory.wf m = true) :
    Memory.wf (memWrite m a n v) = true :=
  Memory.wf_storeBytes m a _ hm

theorem Memory.within_memWrite {m : Memory} {k a n : Nat} (v : Word) (ha : a + n ≤ k) (hm : Memory.Within m k) :
    Memory.Within (memWrite m a n v) k :=
  Memory.within_storeBytes _ (by simpa using ha) hm

end Sys2Proof.Machine
end

