-- ==== Sys2Proof/Laws/Data.lean ====
section
/-! SUPPORT. The laws of samples, lanes and frames: what `s16` and `lo16` do to a value, how a written sample or word is
read back, and that a frame's value depends on its own four bytes alone. -/

namespace Sys2Proof.Machine

/-! ## Samples and lanes -/

theorem fdiv2_eq (x : Int) : fdiv2 x = x / 2 := rfl

theorem s16_fits (p : Half) : FitsS16 (s16 p) := by
  unfold s16
  have := p.toInt_lt
  have := p.le_toInt
  constructor <;> simpa using by omega

@[simp] theorem lo16_s16 (p : Half) : lo16 (s16 p) = p := by simp [lo16, s16]

/-- Storing a value's low 16 bits and reading them back wraps it into the signed 16-bit range. -/
theorem s16_lo16 (x : Int) : s16 (lo16 x) = (x + 32768) % 65536 - 32768 := by
  unfold s16 lo16
  rw [BitVec.toInt_ofInt, Int.bmod_def]
  norm_num
  omega

theorem s16_lo16_of_fits {x : Int} (h : FitsS16 x) : s16 (lo16 x) = x := by
  rw [s16_lo16]; obtain ⟨h1, h2⟩ := h; omega

theorem sumLane_packWord (l r : Int) : sumLane (packWord l r) = lo16 (l + r) := by
  apply BitVec.eq_of_getLsbD_eq
  intro j hj
  have := BitVec.getLsbD_append (x := lo16 (l + r)) (y := lo16 (l - r)) (i := 16 + j)
  simp only [sumLane, packWord, BitVec.getLsbD_extractLsb', hj, decide_true, Bool.true_and]
  rw [this, if_neg (by omega), Nat.add_sub_cancel_left]

theorem diffLane_packWord (l r : Int) : diffLane (packWord l r) = lo16 (l - r) := by
  apply BitVec.eq_of_getLsbD_eq
  intro j hj
  have := BitVec.getLsbD_append (x := lo16 (l + r)) (y := lo16 (l - r)) (i := 0 + j)
  simp only [diffLane, packWord, BitVec.getLsbD_extractLsb', hj, decide_true, Bool.true_and]
  rw [this, if_pos (by omega), Nat.zero_add]

/-! ## Reading back what was written -/

@[simp] theorem leWord_leBytes_two (p : Half) : (leWord (leBytes 2 (p.setWidth 32))).setWidth 16 = p := by
  apply BitVec.eq_of_toNat_eq
  rw [BitVec.toNat_setWidth, leWord_leBytes_toNat]
  simp
  omega

@[simp] theorem leWord_leBytes_four (w : Word) : leWord (leBytes 4 w) = w := by
  apply BitVec.eq_of_toNat_eq
  rw [leWord_leBytes_toNat]
  omega

/-- A read of `n` bytes that are the little-endian bytes of `v`. -/
theorem memRead_of_bytes {m : Memory} {a n : Nat} {v : Word}
    (h : ∀ j, j < n → Memory.read m (a + j) = (leBytes n v)[j]?) :
    memRead (Memory.read m) a n = some (leWord (leBytes n v)) := by
  have := loadBytes_eq (Memory.read m) a (leBytes n v) (by simpa using h)
  rw [leBytes_length] at this
  simp [memRead, this]

theorem readSample_of_bytes {m : Memory} {a : Nat} {x : Int} (hx : FitsS16 x)
    (h : ∀ j, j < 2 → Memory.read m (a + j) = (leBytes 2 ((lo16 x).setWidth 32))[j]?) : readSample m a = some x := by
  rw [readSample, memRead_of_bytes h]
  simp [s16_lo16_of_fits hx]

theorem readSample_fits {m : Memory} {a : Nat} {x : Int} (h : readSample m a = some x) : FitsS16 x := by
  simp only [readSample, Option.map_eq_some_iff] at h
  obtain ⟨w, -, rfl⟩ := h
  exact s16_fits _

theorem readFrame_eq_some {m : Memory} {k : Nat} {l r : Int} :
    readFrame m k = some (l, r) ↔ readSample m (4 * k) = some l ∧ readSample m (4 * k + 2) = some r := by
  simp only [readFrame]
  cases readSample m (4 * k) <;> cases readSample m (4 * k + 2) <;> simp

/-! ## A frame depends on its own bytes alone -/

theorem readSample_congr {m m' : Memory} {a : Nat} (h : ∀ j, j < 2 → Memory.read m (a + j) = Memory.read m' (a + j)) :
    readSample m a = readSample m' a := by
  rw [readSample, readSample, memRead_congr h]

theorem readFrame_congr {m m' : Memory} {k : Nat}
    (h : ∀ j, j < 4 → Memory.read m (4 * k + j) = Memory.read m' (4 * k + j)) : readFrame m k = readFrame m' k := by
  have h1 : readSample m (4 * k) = readSample m' (4 * k) := readSample_congr fun j hj => h j (by omega)
  have h2 : readSample m (4 * k + 2) = readSample m' (4 * k + 2) :=
    readSample_congr fun j hj => by rw [Nat.add_assoc]; exact h (2 + j) (by omega)
  rw [readFrame, readFrame, h1, h2]

theorem readPacked_congr {m m' : Memory} {k : Nat}
    (h : ∀ j, j < 4 → Memory.read m (4 * k + j) = Memory.read m' (4 * k + j)) : readPacked m k = readPacked m' k :=
  memRead_congr h

end Sys2Proof.Machine
end

