-- ==== Sys2Proof/Laws/State.lean ====
section
/-! SUPPORT. What each shared update of the state does to each field, so that no later proof unfolds a record update. -/

namespace Sys2Proof.Machine

/-! ## State.acceptStart -/

@[simp] theorem State.acceptStart_cmdOp (s : State) : s.acceptStart.cmdOp = s.cmdOp := rfl
@[simp] theorem State.acceptStart_cmdMode (s : State) : s.acceptStart.cmdMode = s.cmdMode := rfl
@[simp] theorem State.acceptStart_inChannels (s : State) : s.acceptStart.inChannels = s.inChannels := rfl
@[simp] theorem State.acceptStart_inBits (s : State) : s.acceptStart.inBits = s.inBits := rfl
@[simp] theorem State.acceptStart_inRate (s : State) : s.acceptStart.inRate = s.inRate := rfl
@[simp] theorem State.acceptStart_inLen (s : State) : s.acceptStart.inLen = s.inLen := rfl
@[simp] theorem State.acceptStart_statusBusy (s : State) : s.acceptStart.statusBusy = true := rfl
@[simp] theorem State.acceptStart_statusDone (s : State) : s.acceptStart.statusDone = false := rfl
@[simp] theorem State.acceptStart_statusErr (s : State) : s.acceptStart.statusErr = 0 := rfl
@[simp] theorem State.acceptStart_errFound (s : State) : s.acceptStart.errFound = 0 := rfl
@[simp] theorem State.acceptStart_errExpected (s : State) : s.acceptStart.errExpected = 0 := rfl
@[simp] theorem State.acceptStart_outChannels (s : State) : s.acceptStart.outChannels = s.outChannels := rfl
@[simp] theorem State.acceptStart_outBits (s : State) : s.acceptStart.outBits = s.outBits := rfl
@[simp] theorem State.acceptStart_outRate (s : State) : s.acceptStart.outRate = s.outRate := rfl
@[simp] theorem State.acceptStart_outLen (s : State) : s.acceptStart.outLen = s.outLen := rfl
@[simp] theorem State.acceptStart_lat (s : State) : s.acceptStart.lat = latchesFrom s := rfl
@[simp] theorem State.acceptStart_ibuf (s : State) : s.acceptStart.ibuf = s.ibuf := rfl
@[simp] theorem State.acceptStart_obuf (s : State) : s.acceptStart.obuf = s.obuf := rfl
@[simp] theorem State.acceptStart_abandonedLen (s : State) : s.acceptStart.abandonedLen = s.abandonedLen := rfl
@[simp] theorem State.acceptStart_inReset (s : State) : s.acceptStart.inReset = s.inReset := rfl
@[simp] theorem State.acceptStart_bufBytes (s : State) : s.acceptStart.bufBytes = s.bufBytes := rfl
@[simp] theorem State.acceptStart_doneUnseen (s : State) : s.acceptStart.doneUnseen = true := rfl
@[simp] theorem State.acceptStart_hostOps (s : State) : s.acceptStart.hostOps = s.hostOps := rfl
@[simp] theorem State.acceptStart_schedule (s : State) : s.acceptStart.schedule = s.schedule := rfl
@[simp] theorem State.acceptStart_reads (s : State) : s.acceptStart.reads = s.reads := rfl
@[simp] theorem State.acceptStart_starts (s : State) : s.acceptStart.starts = s.starts + 1 := rfl
@[simp] theorem State.acceptStart_draws (s : State) : s.acceptStart.draws = s.draws := rfl
@[simp] theorem State.acceptStart_epoch (s : State) : s.acceptStart.epoch = s.epoch := rfl

/-! ## State.raiseError -/

@[simp] theorem State.raiseError_cmdOp (e : OpError) (s : State) : (s.raiseError e).cmdOp = s.cmdOp := rfl
@[simp] theorem State.raiseError_cmdMode (e : OpError) (s : State) : (s.raiseError e).cmdMode = s.cmdMode := rfl
@[simp] theorem State.raiseError_inChannels (e : OpError) (s : State) : (s.raiseError e).inChannels = s.inChannels := rfl
@[simp] theorem State.raiseError_inBits (e : OpError) (s : State) : (s.raiseError e).inBits = s.inBits := rfl
@[simp] theorem State.raiseError_inRate (e : OpError) (s : State) : (s.raiseError e).inRate = s.inRate := rfl
@[simp] theorem State.raiseError_inLen (e : OpError) (s : State) : (s.raiseError e).inLen = s.inLen := rfl
@[simp] theorem State.raiseError_statusBusy (e : OpError) (s : State) : (s.raiseError e).statusBusy = false := rfl
@[simp] theorem State.raiseError_statusDone (e : OpError) (s : State) : (s.raiseError e).statusDone = true := rfl
@[simp] theorem State.raiseError_statusErr (e : OpError) (s : State) : (s.raiseError e).statusErr = errorCode e.kind := rfl
@[simp] theorem State.raiseError_errFound (e : OpError) (s : State) : (s.raiseError e).errFound = e.found := rfl
@[simp] theorem State.raiseError_errExpected (e : OpError) (s : State) : (s.raiseError e).errExpected = e.expected := rfl
@[simp] theorem State.raiseError_outChannels (e : OpError) (s : State) : (s.raiseError e).outChannels = 0 := rfl
@[simp] theorem State.raiseError_outBits (e : OpError) (s : State) : (s.raiseError e).outBits = 0 := rfl
@[simp] theorem State.raiseError_outRate (e : OpError) (s : State) : (s.raiseError e).outRate = 0 := rfl
@[simp] theorem State.raiseError_outLen (e : OpError) (s : State) : (s.raiseError e).outLen = 0 := rfl
@[simp] theorem State.raiseError_lat (e : OpError) (s : State) : (s.raiseError e).lat = s.lat := rfl
@[simp] theorem State.raiseError_ibuf (e : OpError) (s : State) : (s.raiseError e).ibuf = s.ibuf := rfl
@[simp] theorem State.raiseError_obuf (e : OpError) (s : State) : (s.raiseError e).obuf = s.obuf := rfl
@[simp] theorem State.raiseError_abandonedLen (e : OpError) (s : State) : (s.raiseError e).abandonedLen = s.abandonedLen := rfl
@[simp] theorem State.raiseError_inReset (e : OpError) (s : State) : (s.raiseError e).inReset = s.inReset := rfl
@[simp] theorem State.raiseError_bufBytes (e : OpError) (s : State) : (s.raiseError e).bufBytes = s.bufBytes := rfl
@[simp] theorem State.raiseError_doneUnseen (e : OpError) (s : State) : (s.raiseError e).doneUnseen = s.doneUnseen := rfl
@[simp] theorem State.raiseError_hostOps (e : OpError) (s : State) : (s.raiseError e).hostOps = s.hostOps := rfl
@[simp] theorem State.raiseError_schedule (e : OpError) (s : State) : (s.raiseError e).schedule = s.schedule := rfl
@[simp] theorem State.raiseError_reads (e : OpError) (s : State) : (s.raiseError e).reads = s.reads := rfl
@[simp] theorem State.raiseError_starts (e : OpError) (s : State) : (s.raiseError e).starts = s.starts := rfl
@[simp] theorem State.raiseError_draws (e : OpError) (s : State) : (s.raiseError e).draws = s.draws := rfl
@[simp] theorem State.raiseError_epoch (e : OpError) (s : State) : (s.raiseError e).epoch = s.epoch := rfl

/-! ## State.complete -/

@[simp] theorem State.complete_cmdOp (ch bits : Half) (len : Word) (s : State) : (s.complete ch bits len).cmdOp = s.cmdOp := rfl
@[simp] theorem State.complete_cmdMode (ch bits : Half) (len : Word) (s : State) : (s.complete ch bits len).cmdMode = s.cmdMode := rfl
@[simp] theorem State.complete_inChannels (ch bits : Half) (len : Word) (s : State) : (s.complete ch bits len).inChannels = s.inChannels := rfl
@[simp] theorem State.complete_inBits (ch bits : Half) (len : Word) (s : State) : (s.complete ch bits len).inBits = s.inBits := rfl
@[simp] theorem State.complete_inRate (ch bits : Half) (len : Word) (s : State) : (s.complete ch bits len).inRate = s.inRate := rfl
@[simp] theorem State.complete_inLen (ch bits : Half) (len : Word) (s : State) : (s.complete ch bits len).inLen = s.inLen := rfl
@[simp] theorem State.complete_statusBusy (ch bits : Half) (len : Word) (s : State) : (s.complete ch bits len).statusBusy = false := rfl
@[simp] theorem State.complete_statusDone (ch bits : Half) (len : Word) (s : State) : (s.complete ch bits len).statusDone = true := rfl
@[simp] theorem State.complete_statusErr (ch bits : Half) (len : Word) (s : State) : (s.complete ch bits len).statusErr = 0 := rfl
@[simp] theorem State.complete_errFound (ch bits : Half) (len : Word) (s : State) : (s.complete ch bits len).errFound = 0 := rfl
@[simp] theorem State.complete_errExpected (ch bits : Half) (len : Word) (s : State) : (s.complete ch bits len).errExpected = 0 := rfl
@[simp] theorem State.complete_outChannels (ch bits : Half) (len : Word) (s : State) : (s.complete ch bits len).outChannels = ch := rfl
@[simp] theorem State.complete_outBits (ch bits : Half) (len : Word) (s : State) : (s.complete ch bits len).outBits = bits := rfl
@[simp] theorem State.complete_outRate (ch bits : Half) (len : Word) (s : State) : (s.complete ch bits len).outRate = s.lat.rate := rfl
@[simp] theorem State.complete_outLen (ch bits : Half) (len : Word) (s : State) : (s.complete ch bits len).outLen = len := rfl
@[simp] theorem State.complete_lat (ch bits : Half) (len : Word) (s : State) : (s.complete ch bits len).lat = s.lat := rfl
@[simp] theorem State.complete_ibuf (ch bits : Half) (len : Word) (s : State) : (s.complete ch bits len).ibuf = s.ibuf := rfl
@[simp] theorem State.complete_obuf (ch bits : Half) (len : Word) (s : State) : (s.complete ch bits len).obuf = s.obuf := rfl
@[simp] theorem State.complete_abandonedLen (ch bits : Half) (len : Word) (s : State) : (s.complete ch bits len).abandonedLen = s.abandonedLen := rfl
@[simp] theorem State.complete_inReset (ch bits : Half) (len : Word) (s : State) : (s.complete ch bits len).inReset = s.inReset := rfl
@[simp] theorem State.complete_bufBytes (ch bits : Half) (len : Word) (s : State) : (s.complete ch bits len).bufBytes = s.bufBytes := rfl
@[simp] theorem State.complete_doneUnseen (ch bits : Half) (len : Word) (s : State) : (s.complete ch bits len).doneUnseen = s.doneUnseen := rfl
@[simp] theorem State.complete_hostOps (ch bits : Half) (len : Word) (s : State) : (s.complete ch bits len).hostOps = s.hostOps := rfl
@[simp] theorem State.complete_schedule (ch bits : Half) (len : Word) (s : State) : (s.complete ch bits len).schedule = s.schedule := rfl
@[simp] theorem State.complete_reads (ch bits : Half) (len : Word) (s : State) : (s.complete ch bits len).reads = s.reads := rfl
@[simp] theorem State.complete_starts (ch bits : Half) (len : Word) (s : State) : (s.complete ch bits len).starts = s.starts := rfl
@[simp] theorem State.complete_draws (ch bits : Half) (len : Word) (s : State) : (s.complete ch bits len).draws = s.draws := rfl
@[simp] theorem State.complete_epoch (ch bits : Half) (len : Word) (s : State) : (s.complete ch bits len).epoch = s.epoch := rfl

/-! ## State.reply -/

@[simp] theorem State.reply_cmdOp (v : Word) (s : State) : (s.reply v).cmdOp = s.cmdOp := rfl
@[simp] theorem State.reply_cmdMode (v : Word) (s : State) : (s.reply v).cmdMode = s.cmdMode := rfl
@[simp] theorem State.reply_inChannels (v : Word) (s : State) : (s.reply v).inChannels = s.inChannels := rfl
@[simp] theorem State.reply_inBits (v : Word) (s : State) : (s.reply v).inBits = s.inBits := rfl
@[simp] theorem State.reply_inRate (v : Word) (s : State) : (s.reply v).inRate = s.inRate := rfl
@[simp] theorem State.reply_inLen (v : Word) (s : State) : (s.reply v).inLen = s.inLen := rfl
@[simp] theorem State.reply_statusBusy (v : Word) (s : State) : (s.reply v).statusBusy = s.statusBusy := rfl
@[simp] theorem State.reply_statusDone (v : Word) (s : State) : (s.reply v).statusDone = s.statusDone := rfl
@[simp] theorem State.reply_statusErr (v : Word) (s : State) : (s.reply v).statusErr = s.statusErr := rfl
@[simp] theorem State.reply_errFound (v : Word) (s : State) : (s.reply v).errFound = s.errFound := rfl
@[simp] theorem State.reply_errExpected (v : Word) (s : State) : (s.reply v).errExpected = s.errExpected := rfl
@[simp] theorem State.reply_outChannels (v : Word) (s : State) : (s.reply v).outChannels = s.outChannels := rfl
@[simp] theorem State.reply_outBits (v : Word) (s : State) : (s.reply v).outBits = s.outBits := rfl
@[simp] theorem State.reply_outRate (v : Word) (s : State) : (s.reply v).outRate = s.outRate := rfl
@[simp] theorem State.reply_outLen (v : Word) (s : State) : (s.reply v).outLen = s.outLen := rfl
@[simp] theorem State.reply_lat (v : Word) (s : State) : (s.reply v).lat = s.lat := rfl
@[simp] theorem State.reply_ibuf (v : Word) (s : State) : (s.reply v).ibuf = s.ibuf := rfl
@[simp] theorem State.reply_obuf (v : Word) (s : State) : (s.reply v).obuf = s.obuf := rfl
@[simp] theorem State.reply_abandonedLen (v : Word) (s : State) : (s.reply v).abandonedLen = s.abandonedLen := rfl
@[simp] theorem State.reply_inReset (v : Word) (s : State) : (s.reply v).inReset = s.inReset := rfl
@[simp] theorem State.reply_bufBytes (v : Word) (s : State) : (s.reply v).bufBytes = s.bufBytes := rfl
@[simp] theorem State.reply_doneUnseen (v : Word) (s : State) : (s.reply v).doneUnseen = s.doneUnseen := rfl
@[simp] theorem State.reply_hostOps (v : Word) (s : State) : (s.reply v).hostOps = s.hostOps := rfl
@[simp] theorem State.reply_schedule (v : Word) (s : State) : (s.reply v).schedule = s.schedule := rfl
@[simp] theorem State.reply_reads (v : Word) (s : State) : (s.reply v).reads = s.reads ++ [v] := rfl
@[simp] theorem State.reply_starts (v : Word) (s : State) : (s.reply v).starts = s.starts := rfl
@[simp] theorem State.reply_draws (v : Word) (s : State) : (s.reply v).draws = s.draws := rfl
@[simp] theorem State.reply_epoch (v : Word) (s : State) : (s.reply v).epoch = s.epoch := rfl

/-! ## State.replyAny -/

@[simp] theorem State.replyAny_cmdOp (n : Nat) (s : State) : (s.replyAny n).cmdOp = s.cmdOp := rfl
@[simp] theorem State.replyAny_cmdMode (n : Nat) (s : State) : (s.replyAny n).cmdMode = s.cmdMode := rfl
@[simp] theorem State.replyAny_inChannels (n : Nat) (s : State) : (s.replyAny n).inChannels = s.inChannels := rfl
@[simp] theorem State.replyAny_inBits (n : Nat) (s : State) : (s.replyAny n).inBits = s.inBits := rfl
@[simp] theorem State.replyAny_inRate (n : Nat) (s : State) : (s.replyAny n).inRate = s.inRate := rfl
@[simp] theorem State.replyAny_inLen (n : Nat) (s : State) : (s.replyAny n).inLen = s.inLen := rfl
@[simp] theorem State.replyAny_statusBusy (n : Nat) (s : State) : (s.replyAny n).statusBusy = s.statusBusy := rfl
@[simp] theorem State.replyAny_statusDone (n : Nat) (s : State) : (s.replyAny n).statusDone = s.statusDone := rfl
@[simp] theorem State.replyAny_statusErr (n : Nat) (s : State) : (s.replyAny n).statusErr = s.statusErr := rfl
@[simp] theorem State.replyAny_errFound (n : Nat) (s : State) : (s.replyAny n).errFound = s.errFound := rfl
@[simp] theorem State.replyAny_errExpected (n : Nat) (s : State) : (s.replyAny n).errExpected = s.errExpected := rfl
@[simp] theorem State.replyAny_outChannels (n : Nat) (s : State) : (s.replyAny n).outChannels = s.outChannels := rfl
@[simp] theorem State.replyAny_outBits (n : Nat) (s : State) : (s.replyAny n).outBits = s.outBits := rfl
@[simp] theorem State.replyAny_outRate (n : Nat) (s : State) : (s.replyAny n).outRate = s.outRate := rfl
@[simp] theorem State.replyAny_outLen (n : Nat) (s : State) : (s.replyAny n).outLen = s.outLen := rfl
@[simp] theorem State.replyAny_lat (n : Nat) (s : State) : (s.replyAny n).lat = s.lat := rfl
@[simp] theorem State.replyAny_ibuf (n : Nat) (s : State) : (s.replyAny n).ibuf = s.ibuf := rfl
@[simp] theorem State.replyAny_obuf (n : Nat) (s : State) : (s.replyAny n).obuf = s.obuf := rfl
@[simp] theorem State.replyAny_abandonedLen (n : Nat) (s : State) : (s.replyAny n).abandonedLen = s.abandonedLen := rfl
@[simp] theorem State.replyAny_inReset (n : Nat) (s : State) : (s.replyAny n).inReset = s.inReset := rfl
@[simp] theorem State.replyAny_bufBytes (n : Nat) (s : State) : (s.replyAny n).bufBytes = s.bufBytes := rfl
@[simp] theorem State.replyAny_doneUnseen (n : Nat) (s : State) : (s.replyAny n).doneUnseen = s.doneUnseen := rfl
@[simp] theorem State.replyAny_hostOps (n : Nat) (s : State) : (s.replyAny n).hostOps = s.hostOps := rfl
@[simp] theorem State.replyAny_schedule (n : Nat) (s : State) : (s.replyAny n).schedule = s.schedule := rfl
@[simp] theorem State.replyAny_reads (n : Nat) (s : State) : (s.replyAny n).reads = s.reads ++ [leWord (leBytes n (Config.busyRead s.draws))] := rfl
@[simp] theorem State.replyAny_starts (n : Nat) (s : State) : (s.replyAny n).starts = s.starts := rfl
@[simp] theorem State.replyAny_draws (n : Nat) (s : State) : (s.replyAny n).draws = s.draws + 1 := rfl
@[simp] theorem State.replyAny_epoch (n : Nat) (s : State) : (s.replyAny n).epoch = s.epoch := rfl

/-! ## State.noteRead -/

@[simp] theorem State.noteRead_cmdOp (off : Nat) (s : State) : (s.noteRead off).cmdOp = s.cmdOp := rfl
@[simp] theorem State.noteRead_cmdMode (off : Nat) (s : State) : (s.noteRead off).cmdMode = s.cmdMode := rfl
@[simp] theorem State.noteRead_inChannels (off : Nat) (s : State) : (s.noteRead off).inChannels = s.inChannels := rfl
@[simp] theorem State.noteRead_inBits (off : Nat) (s : State) : (s.noteRead off).inBits = s.inBits := rfl
@[simp] theorem State.noteRead_inRate (off : Nat) (s : State) : (s.noteRead off).inRate = s.inRate := rfl
@[simp] theorem State.noteRead_inLen (off : Nat) (s : State) : (s.noteRead off).inLen = s.inLen := rfl
@[simp] theorem State.noteRead_statusBusy (off : Nat) (s : State) : (s.noteRead off).statusBusy = s.statusBusy := rfl
@[simp] theorem State.noteRead_statusDone (off : Nat) (s : State) : (s.noteRead off).statusDone = s.statusDone := rfl
@[simp] theorem State.noteRead_statusErr (off : Nat) (s : State) : (s.noteRead off).statusErr = s.statusErr := rfl
@[simp] theorem State.noteRead_errFound (off : Nat) (s : State) : (s.noteRead off).errFound = s.errFound := rfl
@[simp] theorem State.noteRead_errExpected (off : Nat) (s : State) : (s.noteRead off).errExpected = s.errExpected := rfl
@[simp] theorem State.noteRead_outChannels (off : Nat) (s : State) : (s.noteRead off).outChannels = s.outChannels := rfl
@[simp] theorem State.noteRead_outBits (off : Nat) (s : State) : (s.noteRead off).outBits = s.outBits := rfl
@[simp] theorem State.noteRead_outRate (off : Nat) (s : State) : (s.noteRead off).outRate = s.outRate := rfl
@[simp] theorem State.noteRead_outLen (off : Nat) (s : State) : (s.noteRead off).outLen = s.outLen := rfl
@[simp] theorem State.noteRead_lat (off : Nat) (s : State) : (s.noteRead off).lat = s.lat := rfl
@[simp] theorem State.noteRead_ibuf (off : Nat) (s : State) : (s.noteRead off).ibuf = s.ibuf := rfl
@[simp] theorem State.noteRead_obuf (off : Nat) (s : State) : (s.noteRead off).obuf = s.obuf := rfl
@[simp] theorem State.noteRead_abandonedLen (off : Nat) (s : State) : (s.noteRead off).abandonedLen = s.abandonedLen := rfl
@[simp] theorem State.noteRead_inReset (off : Nat) (s : State) : (s.noteRead off).inReset = s.inReset := rfl
@[simp] theorem State.noteRead_bufBytes (off : Nat) (s : State) : (s.noteRead off).bufBytes = s.bufBytes := rfl
@[simp] theorem State.noteRead_doneUnseen (off : Nat) (s : State) : (s.noteRead off).doneUnseen =
    (s.doneUnseen && !(decide (off = 0x18) && s.statusDone)) := rfl
@[simp] theorem State.noteRead_hostOps (off : Nat) (s : State) : (s.noteRead off).hostOps = s.hostOps := rfl
@[simp] theorem State.noteRead_schedule (off : Nat) (s : State) : (s.noteRead off).schedule = s.schedule := rfl
@[simp] theorem State.noteRead_reads (off : Nat) (s : State) : (s.noteRead off).reads = s.reads := rfl
@[simp] theorem State.noteRead_starts (off : Nat) (s : State) : (s.noteRead off).starts = s.starts := rfl
@[simp] theorem State.noteRead_draws (off : Nat) (s : State) : (s.noteRead off).draws = s.draws := rfl
@[simp] theorem State.noteRead_epoch (off : Nat) (s : State) : (s.noteRead off).epoch = s.epoch := rfl

/-- Only a read of STATUS makes anything known to the host. -/
theorem State.noteRead_of_ne (off : Nat) (s : State) (h : off ≠ 0x18) : s.noteRead off = s := by
  simp [State.noteRead, h]

/-- A read of STATUS with DONE = 0 makes nothing known to the host. -/
theorem State.noteRead_of_not_done (off : Nat) (s : State) (h : s.statusDone = false) : s.noteRead off = s := by
  have e : (s.doneUnseen && !(decide (off = 0x18) && s.statusDone)) = s.doneUnseen := by simp [h]
  unfold State.noteRead
  rw [e]

/-! ## What the host sees of a result -/

theorem visibleReg_of_seen (s : State) (off : Nat) (h : s.doneUnseen = false) : visibleReg s off = readReg s off := by
  simp [visibleReg, resultUnseen, h]

theorem visibleReg_of_busy (s : State) (off : Nat) (h : s.statusBusy = true) : visibleReg s off = readReg s off := by
  simp [visibleReg, resultUnseen, h]

theorem visibleReg_of_other (s : State) (off : Nat) (h1 : isOutReg off = false) (h2 : isErrReg off = false) :
    visibleReg s off = readReg s off := by
  simp [visibleReg, h1, h2]

theorem visibleReg_of_unseen (s : State) (off : Nat) (h : resultUnseen s = true)
    (ho : (isOutReg off || isErrReg off) = true) : visibleReg s off = Config.unseenReg s.starts off := by
  rw [visibleReg, h, ho]; rfl

theorem obufByte_of_seen (s : State) (h : s.doneUnseen = false) : obufByte s = seenObufByte s := by
  funext a; simp [obufByte, resultUnseen, h]

theorem seenObufByte_of_written (s : State) (a : Nat) (h : (Memory.read s.obuf a).isSome) :
    seenObufByte s a = Memory.read s.obuf a := by
  obtain ⟨b, hb⟩ := Option.isSome_iff_exists.1 h
  simp [seenObufByte, hb]

theorem seenObufByte_of_abandoned (s : State) (a : Nat) (h : a < s.abandonedLen) :
    seenObufByte s a = some ((Memory.read s.obuf a).getD (Config.abandonedObuf s.epoch a)) := by
  cases hb : Memory.read s.obuf a <;> simp [seenObufByte, hb, h]

theorem seenObufByte_eq_none (s : State) (a : Nat) :
    seenObufByte s a = none ↔ Memory.read s.obuf a = none ∧ s.abandonedLen ≤ a := by
  simp [seenObufByte]

theorem obufByte_of_unseen (s : State) (h : resultUnseen s = true) :
    obufByte s = fun a => some (Config.unseenObuf s.starts a) := by
  funext a; simp [obufByte, h]

/-! ## The reset input -/

@[simp] theorem assertReset_inReset (s : State) : (assertReset s).inReset = true := rfl

theorem releaseReset_of_inReset (s : State) (h : s.inReset = true) :
    releaseReset s = { State.reset with
      abandonedLen := inProgressLen s, bufBytes := s.bufBytes, hostOps := s.hostOps, schedule := s.schedule,
      reads := s.reads, starts := s.starts, draws := s.draws, epoch := s.epoch + 1 } := by
  simp [releaseReset, h]

theorem releaseReset_of_not_inReset (s : State) (h : s.inReset = false) : releaseReset s = s := by
  simp [releaseReset, h]

/-! ## START -/

theorem State.start_of_busy (s : State) (h : s.statusBusy = true) : s.start = s := by simp [State.start, h]

theorem State.start_of_idle (s : State) (h : s.statusBusy = false) : s.start = s.acceptStart := by
  simp [State.start, h]

/-! ## Where a command word is fetched -/

theorem State.withFetchWord_eq (s : State) (nbits w : Nat) :
    s.withFetchWord nbits w = State.acceptStart
      { s with
        cmdOp := opField (tableWord nbits w), cmdMode := modeField (tableWord nbits w), statusBusy := false,
        inReset := false, schedule := [] } := rfl

end Sys2Proof.Machine
end

