-- ==== Sys2Proof/Laws/Operation.lean ====
section
/-! SUPPORT. What the frame loop and the common operation sequence can do, said once; the provers cite these in place of
unfolding `frames` and `runOperation`. -/

namespace Sys2Proof.Machine

/-! ## The frame bodies write blocks -/

/-- `body` turns frame `k` into the `w` bytes that `out k` gives, and stores them at offset `w * k`. -/
def BlockBody (w : Nat) (out : Nat → Option (List Byte)) (body : Nat → Memory → Option Memory) : Prop :=
  (∀ k m, body k m = (out k).map fun bs => storeBytes m (w * k) bs) ∧ ∀ k bs, out k = some bs → bs.length = w

/-- What the loop leaves when every frame has a value: the blocks of frames 0 to n-1, and nothing else changed. -/
structure FramesDone (w : Nat) (out : Nat → Option (List Byte)) (n : Nat) (m m' : Memory) : Prop where
  block : ∀ k, k < n → ∃ bs, out k = some bs ∧ ∀ j, j < w → Memory.read m' (w * k + j) = bs[j]?
  beyond : ∀ a, w * n ≤ a → Memory.read m' a = Memory.read m a
  wf : Memory.wf m = true → Memory.wf m' = true
  within : ∀ l, w * n ≤ l → Memory.Within m l → Memory.Within m' l

theorem frames_succ_of_some {body : Nat → Memory → Option Memory} {n : Nat} {m m₁ : Memory}
    (h : frames body n m = some m₁) : frames body (n + 1) m = body n m₁ := by
  simp [frames, h]

/-- The loop has a result exactly when each of its frames has a value. -/
theorem frames_isSome {w : Nat} {out : Nat → Option (List Byte)} {body : Nat → Memory → Option Memory}
    (hb : BlockBody w out body) (n : Nat) (m : Memory) :
    (frames body n m).isSome ↔ ∀ k, k < n → (out k).isSome := by
  induction n with
  | zero => simp [frames]
  | succ n ih =>
    cases hf : frames body n m with
    | none =>
      simp only [hf, Option.isSome_none, Bool.false_eq_true, false_iff, not_forall] at ih
      obtain ⟨k, hk, hn⟩ := ih
      simp only [frames, hf, Option.bind_none, Option.isSome_none, Bool.false_eq_true, false_iff, not_forall]
      exact ⟨k, by omega, hn⟩
    | some m₁ =>
      simp only [hf, Option.isSome_some, true_iff] at ih
      rw [frames_succ_of_some hf, hb.1, Option.isSome_map]
      constructor
      · intro h k hk
        rcases Nat.lt_succ_iff_lt_or_eq.1 hk with hk | rfl
        · exact ih k hk
        · exact h
      · intro h; exact h n (by omega)

/-- Everything the loop can do when it has a result. -/
theorem frames_done {w : Nat} {out : Nat → Option (List Byte)} {body : Nat → Memory → Option Memory}
    (hb : BlockBody w out body) {n : Nat} {m m' : Memory} (h : frames body n m = some m') :
    FramesDone w out n m m' := by
  induction n generalizing m' with
  | zero =>
    simp only [frames, Option.some.injEq] at h
    subst h
    exact ⟨by omega, fun _ _ => rfl, id, fun _ _ hm => hm⟩
  | succ n ih =>
    cases hf : frames body n m with
    | none => simp [frames, hf] at h
    | some m₁ =>
      rw [frames_succ_of_some hf, hb.1, Option.map_eq_some_iff] at h
      obtain ⟨bs, hout, rfl⟩ := h
      have hlen := hb.2 n bs hout
      obtain ⟨hblock, hbeyond, hwf, hwithin⟩ := ih hf
      have hsucc : w * (n + 1) = w * n + w := Nat.mul_succ w n
      refine ⟨?_, ?_, fun hm => Memory.wf_storeBytes _ _ _ (hwf hm),
        fun l hl hm => Memory.within_storeBytes _ (by omega) (hwithin l (by omega) hm)⟩
      · intro k hk
        rcases Nat.lt_succ_iff_lt_or_eq.1 hk with hk | rfl
        · obtain ⟨bs', hbs', hr⟩ := hblock k hk
          refine ⟨bs', hbs', fun j hj => ?_⟩
          have : w * (k + 1) ≤ w * n := Nat.mul_le_mul_left w hk
          rw [Nat.mul_succ] at this
          rw [Memory.read_storeBytes, if_neg (by omega), hr j hj]
        · refine ⟨bs, hout, fun j hj => ?_⟩
          rw [Memory.read_storeBytes, if_pos (by omega)]
          congr 1; omega
      · intro a ha
        rw [Memory.read_storeBytes, if_neg (by omega), hbeyond a (by omega)]

/-- The bytes MONO writes for frame `k` (spec/41_channel_select.md R150). -/
def monoBytes (mode : Mode) (ibuf : Memory) (k : Nat) : Option (List Byte) :=
  (readFrame ibuf k).map fun f => leBytes 2 ((lo16 (monoSel mode f.1 f.2)).setWidth 32)

/-- The bytes PACK writes for frame `k` (spec/42_sumdiff_pack.md R180). -/
def packBytes (ibuf : Memory) (k : Nat) : Option (List Byte) :=
  (readFrame ibuf k).map fun f => leBytes 4 (packWord f.1 f.2)

/-- The bytes UNPACK writes for frame `k` (R190). -/
def unpackBytes (ibuf : Memory) (k : Nat) : Option (List Byte) :=
  (readPacked ibuf k).map fun w =>
    leBytes 2 ((lo16 (unpackWord w).1).setWidth 32) ++ leBytes 2 ((lo16 (unpackWord w).2).setWidth 32)

theorem monoFrame_blockBody (mode : Mode) (ibuf : Memory) :
    BlockBody 2 (monoBytes mode ibuf) (monoFrame mode ibuf) := by
  constructor
  · intro k m; simp [monoFrame, monoBytes, writeSample, memWrite, Function.comp_def]
  · intro k bs h
    obtain ⟨f, -, rfl⟩ := Option.map_eq_some_iff.1 h
    simp

theorem packFrame_blockBody (ibuf : Memory) : BlockBody 4 (packBytes ibuf) (packFrame ibuf) := by
  constructor
  · intro k m; simp [packFrame, packBytes, memWrite, Function.comp_def]
  · intro k bs h
    obtain ⟨f, -, rfl⟩ := Option.map_eq_some_iff.1 h
    simp

theorem unpackFrame_blockBody (ibuf : Memory) : BlockBody 4 (unpackBytes ibuf) (unpackFrame ibuf) := by
  constructor
  · intro k m; simp [unpackFrame, unpackBytes, writeSample, memWrite, storeBytes_append, Function.comp_def]
  · intro k bs h
    obtain ⟨f, -, rfl⟩ := Option.map_eq_some_iff.1 h
    simp

/-! ## When a frame has a value -/

theorem readFrame_isSome (m : Memory) (k : Nat) :
    (readFrame m k).isSome ↔ ∀ j, j < 4 → (Memory.read m (4 * k + j)).isSome := by
  have h1 := memRead_isSome (Memory.read m) (4 * k) 2
  have h2 := memRead_isSome (Memory.read m) (4 * k + 2) 2
  have hs : (readFrame m k).isSome ↔
      (memRead (Memory.read m) (4 * k) 2).isSome ∧ (memRead (Memory.read m) (4 * k + 2) 2).isSome := by
    simp only [readFrame, readSample]
    cases memRead (Memory.read m) (4 * k) 2 <;> cases memRead (Memory.read m) (4 * k + 2) 2 <;> simp
  rw [hs, h1, h2]
  constructor
  · rintro ⟨ha, hb⟩ j hj
    by_cases hj2 : j < 2
    · exact ha j hj2
    · have := hb (j - 2) (by omega)
      rwa [show 4 * k + 2 + (j - 2) = 4 * k + j by omega] at this
  · intro h
    exact ⟨fun j hj => h j (by omega), fun j hj => by have := h (j + 2) (by omega); rwa [show 4 * k + (j + 2) = 4 * k + 2 + j by omega] at this⟩

theorem readPacked_isSome (m : Memory) (k : Nat) :
    (readPacked m k).isSome ↔ ∀ j, j < 4 → (Memory.read m (4 * k + j)).isSome :=
  memRead_isSome _ _ _

/-- The bytes of the `n` frames are written exactly when every byte below `4 * n` is. -/
theorem writtenBelow_iff_frames (m : Memory) (n : Nat) :
    Memory.WrittenBelow m (4 * n) ↔ ∀ k, k < n → ∀ j, j < 4 → (Memory.read m (4 * k + j)).isSome := by
  constructor
  · intro h k hk j hj; exact h _ (by omega)
  · intro h a ha
    have := h (a / 4) (by omega) (a % 4) (Nat.mod_lt _ (by omega))
    rwa [Nat.div_add_mod] at this

/-! ## The common operation sequence -/

/-- Everything an instruction's completion step can do. -/
theorem runOperation_cases (i : Instr) (body : Nat → Memory → Option Memory) (ch bits : Half) (w : Nat) (s : State) :
    (∃ e, check i s.lat s.bufBytes = some e ∧ runOperation i body ch bits w s = .next (s.raiseError e)) ∨
    (check i s.lat s.bufBytes = none ∧ frames body (frameCount s) s.obuf = none ∧
      runOperation i body ch bits w s = .fault .unwrittenInput) ∨
    (∃ m, check i s.lat s.bufBytes = none ∧ frames body (frameCount s) s.obuf = some m ∧
      runOperation i body ch bits w s =
        .next (State.complete ch bits (BitVec.ofNat 32 (w * frameCount s)) { s with obuf := m })) := by
  simp only [runOperation]
  cases hc : check i s.lat s.bufBytes with
  | some e => exact .inl ⟨e, rfl, rfl⟩
  | none =>
    cases hf : frames body (frameCount s) s.obuf with
    | none => exact .inr (.inl ⟨rfl, rfl, rfl⟩)
    | some m => exact .inr (.inr ⟨m, rfl, rfl, rfl⟩)

/-- What Check leaves when it passes: the instruction's precondition, and a payload of whole frames inside the buffer. -/
theorem check_eq_none (i : Instr) (lat : Latches) (bufBytes : Nat) :
    check i lat bufBytes = none ↔
      preconditionError lat i = none ∧ lat.len.toNat ≤ bufBytes ∧ lat.len.toNat % 4 = 0 := by
  simp only [check, Option.or_eq_none_iff, lengthError]
  split
  · simp; omega
  · split
    · simp; omega
    · simp; omega

theorem channelError_eq_none (lat : Latches) : channelError lat = none ↔ lat.ch = 2#16 := by
  simp [channelError]

theorem bitsError_eq_none (lat : Latches) : bitsError lat = none ↔ lat.bits = 32#16 := by
  simp [bitsError]

/-- Every error records one of the codes 1 to 6 (spec/60_exceptions.md R221). -/
theorem errorCode_bounds (k : ErrorKind) : errorCode k ≠ 0 ∧ (errorCode k).toNat ≤ 6 := by
  cases k <;> decide

end Sys2Proof.Machine
end

