-- ==== Sys2Proof/Laws/Exec.lean ====
section
/-! SUPPORT. The one shape of all six instructions: each is the common operation sequence over a body that writes one
block of bytes for each frame of its payload. -/

namespace Sys2Proof.Machine

theorem monoBytes_isSome (mode : Mode) (ibuf : Memory) (k : Nat) :
    (monoBytes mode ibuf k).isSome ↔ ∀ j, j < 4 → (Memory.read ibuf (4 * k + j)).isSome := by
  rw [monoBytes, Option.isSome_map, readFrame_isSome]

theorem packBytes_isSome (ibuf : Memory) (k : Nat) :
    (packBytes ibuf k).isSome ↔ ∀ j, j < 4 → (Memory.read ibuf (4 * k + j)).isSome := by
  rw [packBytes, Option.isSome_map, readFrame_isSome]

theorem unpackBytes_isSome (ibuf : Memory) (k : Nat) :
    (unpackBytes ibuf k).isSome ↔ ∀ j, j < 4 → (Memory.read ibuf (4 * k + j)).isSome := by
  rw [unpackBytes, Option.isSome_map, readPacked_isSome]

/-- What the completion step of `i` is: `w` bytes a frame, given by `out`, with the result descriptor `ch`, `bits`. -/
structure InstrShape (i : Instr) (w : Nat) (out : Memory → Nat → Option (List Byte))
    (body : Memory → Nat → Memory → Option Memory) (ch bits : Half) : Prop where
  exec_eq : ∀ s, exec i s = runOperation i (body s.ibuf) ch bits w s
  blockBody : ∀ ibuf, BlockBody w (out ibuf) (body ibuf)
  out_isSome : ∀ ibuf k, (out ibuf k).isSome ↔ ∀ j, j < 4 → (Memory.read ibuf (4 * k + j)).isSome
  out_congr : ∀ ibuf ibuf' k, (∀ j, j < 4 → Memory.read ibuf (4 * k + j) = Memory.read ibuf' (4 * k + j)) →
    out ibuf k = out ibuf' k

theorem monoLeft_shape : InstrShape .monoLeft 2 (monoBytes .left) (monoFrame .left) 1 16 :=
  ⟨fun _ => rfl, monoFrame_blockBody _, monoBytes_isSome _, fun _ _ _ h => by simp only [monoBytes, readFrame_congr h]⟩

theorem monoRight_shape : InstrShape .monoRight 2 (monoBytes .right) (monoFrame .right) 1 16 :=
  ⟨fun _ => rfl, monoFrame_blockBody _, monoBytes_isSome _, fun _ _ _ h => by simp only [monoBytes, readFrame_congr h]⟩

theorem monoSum_shape : InstrShape .monoSum 2 (monoBytes .sumAvg) (monoFrame .sumAvg) 1 16 :=
  ⟨fun _ => rfl, monoFrame_blockBody _, monoBytes_isSome _, fun _ _ _ h => by simp only [monoBytes, readFrame_congr h]⟩

theorem monoDiff_shape : InstrShape .monoDiff 2 (monoBytes .diffAvg) (monoFrame .diffAvg) 1 16 :=
  ⟨fun _ => rfl, monoFrame_blockBody _, monoBytes_isSome _, fun _ _ _ h => by simp only [monoBytes, readFrame_congr h]⟩

theorem pack_shape : InstrShape .pack 4 packBytes packFrame 1 32 :=
  ⟨fun _ => rfl, packFrame_blockBody, packBytes_isSome, fun _ _ _ h => by simp only [packBytes, readFrame_congr h]⟩

theorem unpack_shape : InstrShape .unpack 4 unpackBytes unpackFrame 2 16 :=
  ⟨fun _ => rfl, unpackFrame_blockBody, unpackBytes_isSome, fun _ _ _ h => by simp only [unpackBytes, readPacked_congr h]⟩

/-- Every instruction has the shape, with 4 bytes a frame for PACK and UNPACK and 2 for MONO. -/
theorem instr_shape (i : Instr) :
    ∃ out body ch bits, InstrShape i (if i = .pack ∨ i = .unpack then 4 else 2) out body ch bits := by
  cases i with
  | monoLeft => exact ⟨_, _, _, _, monoLeft_shape⟩
  | monoRight => exact ⟨_, _, _, _, monoRight_shape⟩
  | monoSum => exact ⟨_, _, _, _, monoSum_shape⟩
  | monoDiff => exact ⟨_, _, _, _, monoDiff_shape⟩
  | pack => exact ⟨_, _, _, _, pack_shape⟩
  | unpack => exact ⟨_, _, _, _, unpack_shape⟩

end Sys2Proof.Machine
end

