-- ==== Sys2Proof/Laws/PerInstr.lean ====
section
/-! SUPPORT. Statements made per instruction: one lemma for each constructor of Instr. -/

namespace Sys2Proof.Laws

/-- The instruction's row of the opcode map (spec/30_encoding.md R99) is its own: it is well formed, its match value has
no bit outside its mask, and its match value decodes to it. -/
def TableRow.Statement (i : Instr) : Prop :=
  i.wf = true ∧ encode i &&& encodingMask i = encode i ∧ decodeWord (encode i) = .legal i

theorem TableRow.monoLeft : TableRow.Statement .monoLeft := ⟨rfl, by decide, by decide⟩

theorem TableRow.monoRight : TableRow.Statement .monoRight := ⟨rfl, by decide, by decide⟩

theorem TableRow.monoSum : TableRow.Statement .monoSum := ⟨rfl, by decide, by decide⟩

theorem TableRow.monoDiff : TableRow.Statement .monoDiff := ⟨rfl, by decide, by decide⟩

theorem TableRow.pack : TableRow.Statement .pack := ⟨rfl, by decide, by decide⟩

theorem TableRow.unpack : TableRow.Statement .unpack := ⟨rfl, by decide, by decide⟩

end Sys2Proof.Laws
end

