-- ==== Sys2Proof/Laws/Step.lean ====
section
/-! SUPPORT. What one step can do, said once: which agent moved and what it did. -/

namespace Sys2Proof.Machine

/-- The ways a step from `s` answers a next state: the host makes its next access, the engine completes, nothing
happens but the use of a turn, or the reset input moves. -/
inductive Moved (s : State) : State → Prop
  | host (h : HostOp) (rest : List HostOp) (turns : List Turn) (t : State) :
      s.hostOps = h :: rest → hostAccess h { s with schedule := turns, hostOps := rest } = .next t → Moved s t
  | engine (turns : List Turn) (t : State) :
      s.statusBusy = true → s.inReset = false → completionStep { s with schedule := turns } = .next t → Moved s t
  | idle (turns : List Turn) : Moved s { s with schedule := turns }
  | asserted (turns : List Turn) : Moved s { s with schedule := turns, inReset := true }
  | released (turns : List Turn) : s.inReset = true → Moved s (releaseReset { s with schedule := turns })

theorem Moved.of_hostTurn {s t : State} (turns : List Turn) (h : hostTurn { s with schedule := turns } = .next t) :
    Moved s t := by
  unfold hostTurn at h
  split at h
  · cases h; exact .idle _
  · rename_i hh; exact .host _ _ _ _ hh h

theorem Moved.of_engineTurn {s t : State} (turns : List Turn) (h : engineTurn { s with schedule := turns } = .next t) :
    Moved s t := by
  unfold engineTurn at h
  split at h
  · rename_i e
    simp only [engineReady, Bool.and_eq_true, Bool.not_eq_true'] at e
    exact .engine turns _ e.1 e.2 h
  · cases h; exact .idle _

/-- Everything a step that answers a next state can have done. -/
theorem step_moved {s t : State} (h : step s = .next t) : Moved s t := by
  unfold step at h
  split at h
  · rename_i turn rest _
    cases turn with
    | host => exact .of_hostTurn rest h
    | engine => exact .of_engineTurn rest h
    | assertReset => cases h; exact .asserted rest
    | releaseReset =>
      cases h
      by_cases hr : s.inReset = true
      · exact .released rest hr
      · rw [releaseReset_of_not_inReset _ (by simpa using hr)]; exact .idle rest
  · rename_i hs
    have e : s = { s with schedule := [] } := by rw [← hs]
    split at h
    · rw [e] at h; exact .of_engineTurn [] h
    · rw [e] at h; exact .of_hostTurn [] h

/-- A running operation completes when nothing is scheduled. -/
theorem step_of_running {s : State} (h1 : s.schedule = []) (h2 : s.statusBusy = true) (h3 : s.inReset = false) :
    step s = completionStep s := by
  simp [step, h1, engineReady, engineTurn, h2, h3]

/-- The engine's turn is the completion step. -/
theorem step_of_engineMoves {s u : State} (h : s.EngineMovesFrom u) : step s = completionStep u := by
  obtain ⟨hb, hr, ⟨hs, rfl⟩ | ⟨rest, hs, rfl⟩⟩ := h
  · exact step_of_running hs hb hr
  · simp [step, hs, takeTurn, engineTurn, engineReady, hb, hr]

/-- What an interrupted operation may have written lies inside OBUF. -/
theorem inProgressLen_le (s : State) : inProgressLen s ≤ s.bufBytes := by
  unfold inProgressLen
  split
  · split
    · rename_i i _
      split
      · rename_i hc
        have hl := ((check_eq_none _ _ _).1 hc).2.1
        cases i <;> simp only [resultLen] <;> omega
      · exact Nat.zero_le _
    · exact Nat.zero_le _
    · exact Nat.zero_le _
  · exact Nat.zero_le _

/-- What a run does in its first step. -/
theorem run_succ {s t : State} {k : Nat} (h : step s = .next t) :
    Host.Core.run Sys2Proof.core (k + 1) s = Host.Core.run Sys2Proof.core k t := by
  have h' : Sys2Proof.core.step s = .next t := h
  simp only [Host.Core.run, h']

/-- The fields of STATUS can be told from its word. -/
theorem statusWord_inj {s t : State} (h : statusWord s = statusWord t) :
    s.statusErr = t.statusErr ∧ s.statusDone = t.statusDone ∧ s.statusBusy = t.statusBusy := by
  unfold statusWord at h
  generalize s.statusErr = e at *
  generalize s.statusDone = d at *
  generalize s.statusBusy = b at *
  generalize t.statusErr = e' at *
  generalize t.statusDone = d' at *
  generalize t.statusBusy = b' at *
  revert e d b e' d' b'
  decide +kernel

/-- Every register read but those of OUT_* while BUSY = 1 returns what the host sees of the register, and notes what
STATUS showed. -/
theorem hostAccess_rd {s : State} {off : Nat} (ho : regAccessOk off 4 = true) (hr : s.inReset = false)
    (hu : (s.statusBusy && isOutReg off) = false) :
    hostAccess (.rd off 4) s = .next (State.reply (visibleReg s off) (s.noteRead off)) := by
  simp only [hostAccess, hostRd, ho, hr, hu]; rfl

/-- A read of OUT_* while BUSY = 1 is a draw. -/
theorem hostAccess_rd_of_drawn {s : State} {off : Nat} (ho : regAccessOk off 4 = true) (hr : s.inReset = false)
    (hu : (s.statusBusy && isOutReg off) = true) : hostAccess (.rd off 4) s = .next (s.replyAny 4) := by
  simp only [hostAccess, hostRd, ho, hr, hu]; rfl

/-- The host sees DONE = 1 only in a read of STATUS, and no access changes what the free values of the buffers
depend on. -/
theorem hostAccess_window {h : HostOp} {s t : State} (ht : hostAccess h s = .next t) :
    t.epoch = s.epoch ∧ t.abandonedLen = s.abandonedLen ∧ (s.doneUnseen = true → t.doneUnseen = false →
      s.statusDone = true ∧ s.inReset = false ∧ (h = .rd 0x18 4 ∨ h = .wait)) := by
  cases h with
  | rd off w =>
    simp only [hostAccess, hostRd] at ht
    split_ifs at ht with h1 h2 h3 <;> cases ht
    · simp_all
    · simp_all
    · simp only [regAccessOk, Bool.not_eq_true', decide_eq_false_iff_not, not_not] at h1
      simp_all
  | wr off w v =>
    simp only [hostAccess, hostWr] at ht
    split_ifs at ht <;> cases ht
    · simp_all
    · unfold writeReg State.start; split_ifs <;> simp_all
  | rdb b a n =>
    simp only [hostAccess, hostRdb] at ht
    cases b <;> simp only at ht
    · split_ifs at ht <;> cases ht <;> simp_all
    · split_ifs at ht
      · cases ht; simp_all
      · cases ht; simp_all
      · split at ht <;> cases ht; simp_all
  | wrb b a n v =>
    simp only [hostAccess, hostWrb] at ht
    cases b <;> simp only at ht <;> split_ifs at ht <;> cases ht <;> simp_all
  | wait =>
    simp only [hostAccess, hostWait] at ht
    split_ifs at ht with h1 <;> cases ht
    · unfold polledStatus at h1
      split at h1 <;> simp_all
    · simp_all

/-- IBUF changes only by a legal host write. -/
theorem hostAccess_ibuf {h : HostOp} {s t : State} (ht : hostAccess h s = .next t) :
    t.ibuf = s.ibuf ∨ ∃ a n v, a + n ≤ s.bufBytes ∧ t.ibuf = memWrite s.ibuf a n v := by
  cases h with
  | rd off w => simp only [hostAccess, hostRd] at ht; split_ifs at ht <;> cases ht <;> simp
  | wr off w v =>
    simp only [hostAccess, hostWr] at ht
    split_ifs at ht <;> cases ht
    · exact .inl rfl
    · left; unfold writeReg State.start; split_ifs <;> simp
  | rdb b a n =>
    simp only [hostAccess, hostRdb] at ht
    cases b <;> simp only at ht
    · split_ifs at ht <;> cases ht <;> simp
    · split_ifs at ht
      · cases ht; simp
      · cases ht; simp
      · split at ht <;> cases ht; simp
  | wrb b a n v =>
    simp only [hostAccess, hostWrb] at ht
    cases b <;> simp only at ht <;> split_ifs at ht with h1 h2 <;> cases ht
    · exact .inl rfl
    · right
      simp only [bufAccessOk, Bool.not_eq_true', decide_eq_false_iff_not, not_not] at h1
      exact ⟨a, n, v, h1.2, rfl⟩
    · exact .inl rfl
    · exact .inl rfl
  | wait => simp only [hostAccess, hostWait] at ht; split_ifs at ht <;> cases ht <;> simp

end Sys2Proof.Machine
end

