-- ==== Sys2Proof/Tests/Slice0.lean ====
section
/-! SUPPORT. Tests on small states, and for every statement with hypotheses a state that meets them all. Expected values
are the spec's: 95_test_vectors.md and the rules' worked examples. -/

namespace Sys2Proof.Tests

open Sys2Proof.Machine

/-! ## Helpers -/

/-- Bytes stored from address 0. -/
def bytes (bs : List Byte) : Memory := storeBytes [] 0 bs

/-- An idle block of 64-byte buffers, as 95_test_vectors.md has it. -/
def idle : State := { State.reset with bufBytes := 64 }

/-- A block of 64-byte buffers running an operation. -/
def running (op : BitVec 4) (mode : BitVec 8) (ch bits : Half) (len : Word) (payload : List Byte) : State :=
  { idle with
    statusBusy := true, doneUnseen := true, lat := { op := op, mode := mode, ch := ch, bits := bits, rate := 44100, len := len },
    ibuf := bytes payload }

/-- One field of the next state; none if the step stops. -/
def after {α : Type} (f : State → α) : Result → Option α
  | .next t => some (f t)
  | .fault _ => none
  | .refused _ => none

/-- STATUS, ERR_FOUND, ERR_EXPECTED and OUT_LEN. -/
def record (s : State) : List Word := [statusWord s, s.errFound, s.errExpected, s.outLen]

/-- OUT_CHANNELS, OUT_BITS and OUT_RATE. -/
def descriptor (s : State) : Half × Half × Word := (s.outChannels, s.outBits, s.outRate)

/-! ## Well-formedness: each check refuses an ill-formed term -/

theorem test_wf_refuses_valid_mode_as_invalid : (Command.monoInvalid 3#8).wf = false := by decide

theorem test_wf_refuses_legal_op_as_illegal : (Command.illegal 2#4).wf = false := by decide

theorem test_wf_accepts_first_invalid_values :
    (Command.monoInvalid 4#8).wf = true ∧ (Command.illegal 3#4).wf = true := by decide

theorem test_wf_instructions :
    [Instr.monoLeft, .monoRight, .monoSum, .monoDiff, .pack, .unpack].all Instr.wf = true := by decide

theorem test_memory_wf_refuses_unsorted : Memory.wf [(1, 0), (0, 0)] = false ∧ Memory.wf [(1, 0), (1, 0)] = false := by
  decide

theorem test_buffer_size_is_checked :
    ¬ Config.LegalBufBytes 6 ∧ ¬ Config.LegalBufBytes 0 ∧ ¬ Config.LegalBufBytes (2 ^ 32) ∧ Config.LegalBufBytes 64 := by
  decide

/-! ## Decoding: words written out from the encodings of R99, `x` bits both ways -/

theorem test_decode_monoLeft :
    decodeTableWord 32 0b00000000000000000000000000000000 = some .monoLeft ∧
    decodeTableWord 32 0b11111111111111110000000011110000 = some .monoLeft := by decide

theorem test_decode_monoRight :
    decodeTableWord 32 0b00000000000000000000000100000000 = some .monoRight ∧
    decodeTableWord 32 0b11111111111111110000000111110000 = some .monoRight := by decide

theorem test_decode_monoSum :
    decodeTableWord 32 0b00000000000000000000001000000000 = some .monoSum ∧
    decodeTableWord 32 0b11111111111111110000001011110000 = some .monoSum := by decide

theorem test_decode_monoDiff :
    decodeTableWord 32 0b00000000000000000000001100000000 = some .monoDiff ∧
    decodeTableWord 32 0b11111111111111110000001111110000 = some .monoDiff := by decide

theorem test_decode_pack :
    decodeTableWord 32 0b00000000000000000000000000000001 = some .pack ∧
    decodeTableWord 32 0b11111111111111111111111111110001 = some .pack := by decide

theorem test_decode_unpack :
    decodeTableWord 32 0b00000000000000000000000000000010 = some .unpack ∧
    decodeTableWord 32 0b11111111111111111111111111110010 = some .unpack := by decide

theorem test_decode_illegal_words :
    decodeTableWord 32 0x00000900 = none ∧ decodeTableWord 32 0x00000003 = none ∧
    decodeTableWord 32 0x0000000F = none := by decide

/-! ## The instructions: one completion step each -/

/-- V5, V12a: the left samples of (-32768, 32767) and (5, -1). -/
theorem test_monoLeft :
    after State.obuf (step (running 0 0 2 16 8 [0x00, 0x80, 0xFF, 0x7F, 0x05, 0x00, 0xFF, 0xFF])) =
      some (bytes [0x00, 0x80, 0x05, 0x00]) := by decide

/-- V25: MONO.LEFT of no frames succeeds. -/
theorem test_monoLeft_empty :
    after record (step (running 0 0 2 0 0 [])) = some [0x00000002, 0, 0, 0] := by decide

/-- V5: the right samples. -/
theorem test_monoRight :
    after State.obuf (step (running 0 1 2 16 8 [0x00, 0x80, 0xFF, 0x7F, 0x05, 0x00, 0xFF, 0xFF])) =
      some (bytes [0xFF, 0x7F, 0xFF, 0xFF]) := by decide

/-- V1: (4, 2), (-4, -2), (1, -1) give 3, -3, 0. -/
theorem test_monoSum :
    after State.obuf
      (step (running 0 2 2 16 12 [0x04, 0x00, 0x02, 0x00, 0xFC, 0xFF, 0xFE, 0xFF, 0x01, 0x00, 0xFF, 0xFF])) =
      some (bytes [0x03, 0x00, 0xFD, 0xFF, 0x00, 0x00]) := by decide

/-- V14: (4660, -21555) has the odd negative sum -16895, and floors to -8448. -/
theorem test_monoSum_floors :
    after State.obuf (step (running 0 2 2 16 4 [0x34, 0x12, 0xCD, 0xAB])) = some (bytes [0x00, 0xDF]) := by decide

/-- V9 and V11a: (0, 1) gives -1, (-32768, 32767) gives -32768. -/
theorem test_monoDiff_floors :
    after State.obuf (step (running 0 3 2 16 8 [0x00, 0x00, 0x01, 0x00, 0x00, 0x80, 0xFF, 0x7F])) =
      some (bytes [0xFF, 0xFF, 0x00, 0x80]) := by decide

/-- V18: 34 12 CD AB packs to 67 66 01 BE. -/
theorem test_pack :
    after State.obuf (step (running 1 0x55 2 32 4 [0x34, 0x12, 0xCD, 0xAB])) =
      some (bytes [0x67, 0x66, 0x01, 0xBE]) := by decide

/-- V3: (30000, 30000) wraps to 0xEA600000; the result descriptor is one channel of 32 bits. -/
theorem test_pack_wraps :
    after (fun t => (t.obuf, descriptor t, t.outLen)) (step (running 1 0 2 16 4 [0x30, 0x75, 0x30, 0x75])) =
      some (bytes [0x00, 0x00, 0x60, 0xEA], (1, 32, 44100), 4) := by decide

/-- V19: 0x00320096 unpacks to (100, -50), whatever the channel count (V25: 7). -/
theorem test_unpack :
    after (fun t => (t.obuf, descriptor t)) (step (running 2 0 7 32 4 [0x96, 0x00, 0x32, 0x00])) =
      some (bytes [0x64, 0x00, 0xCE, 0xFF], (2, 16, 44100)) := by decide

/-- V21, V22: 0x00000001 gives (0, -1), 0x80007FFF gives (-1, -32768). -/
theorem test_unpack_floors :
    after State.obuf (step (running 2 0 2 32 8 [0x01, 0x00, 0x00, 0x00, 0xFF, 0x7F, 0x00, 0x80])) =
      some (bytes [0x00, 0x00, 0xFF, 0xFF, 0xFF, 0xFF, 0x00, 0x80]) := by decide

/-- P4: OBUF bytes at or beyond OUT_LEN are kept. -/
theorem test_obuf_beyond_output_is_kept :
    after State.obuf
      (step { running 0 0 2 16 4 [0x01, 0x02, 0x03, 0x04] with obuf := bytes [0xA0, 0xA1, 0xA2, 0xA3] }) =
      some (bytes [0x01, 0x02, 0xA2, 0xA3]) := by decide

/-- V25, the error rows. -/
theorem test_errors :
    after record (step (running 3 0 2 16 4 [])) = some [0x00000502, 3, 2, 0] ∧
    after record (step (running 15 0 2 16 4 [])) = some [0x00000502, 15, 2, 0] ∧
    after record (step (running 0 9 1 16 4 [])) = some [0x00000302, 1, 2, 0] ∧
    after record (step (running 0 9 2 16 4 [])) = some [0x00000402, 9, 3, 0] ∧
    after record (step (running 0 255 2 16 4 [])) = some [0x00000402, 255, 3, 0] ∧
    after record (step (running 1 0 1 16 6 [])) = some [0x00000302, 1, 2, 0] ∧
    after record (step (running 1 0 2 16 6 [])) = some [0x00000202, 6, 4, 0] ∧
    after record (step (running 2 0 2 16 3 [])) = some [0x00000102, 16, 32, 0] ∧
    after record (step (running 2 0 2 32 68 [])) = some [0x00000602, 68, 64, 0] := by decide

/-- V26 and `withFetchWord`: MONO.LEFT straight after reset ends with CHANNEL_MISMATCH. -/
theorem test_first_instruction_after_reset :
    after record (step (State.reset.withFetchWord 32 0)) = some [0x00000302, 0, 2, 0] ∧
    after record (step (State.reset.withFetchWord 32 2)) = some [0x00000102, 0, 32, 0] := by decide

/-! ## The host -/

/-- V28: CMD drops its reserved bits. -/
theorem test_cmd_readback :
    after (fun t => readReg t 0x04) (hostAccess (.wr 0x04 4 0x12345678) idle) = some 0x00005608 ∧
    after (fun t => readReg t 0x08) (hostAccess (.wr 0x08 4 0xABCD0002) idle) = some 0x00000002 := by decide

/-- V27: STATUS after an accepted START. -/
theorem test_start_status : after statusWord (hostAccess (.wr 0x00 4 1) idle) = some 0x00000001 := by decide

/-- V29: a START while BUSY = 1 is dropped, and CMD takes the new command without running it. -/
theorem test_start_while_busy_is_dropped :
    after (fun t => (t.lat.op, t.cmdOp)) (hostAccess (.wr 0x04 4 3) (running 0 0 2 0 0 [])) = some (0, 3) ∧
    hostAccess (.wr 0x00 4 1) (running 0 0 2 0 0 []) = .next (running 0 0 2 0 0 []) := by
  exact ⟨by decide, rfl⟩

/-- V18: a packed word's bytes at the three widths. -/
theorem test_obuf_widths :
    after State.reads (hostAccess (.rdb .obuf 0 4) { idle with obuf := bytes [0x67, 0x66, 0x01, 0xBE] }) =
      some [0xBE016667] ∧
    after State.reads (hostAccess (.rdb .obuf 2 2) { idle with obuf := bytes [0x67, 0x66, 0x01, 0xBE] }) =
      some [0xBE01] := by decide

/-- R254: an IBUF write between the completion and the host's sight of DONE = 1, and the same write after it. -/
theorem test_ibuf_write_before_done_is_seen :
    hostAccess (.wrb .ibuf 0 1 7) { idle with statusDone := true, doneUnseen := true } = .fault .bufferHazard ∧
    after State.ibuf (hostAccess (.wrb .ibuf 0 1 7) { idle with statusDone := true }) = some [(0, 7)] :=
  ⟨rfl, by decide⟩

/-- R253, R70: before DONE = 1 is seen OUT_LEN reads as one unspecified value, twice the same, and STATUS as it is. -/
theorem test_unseen_result :
    (∃ v, hostAccess (.rd 0x30 4) { idle with statusDone := true, doneUnseen := true } =
        .next { idle with statusDone := true, doneUnseen := true, reads := [v] } ∧
      hostAccess (.rd 0x30 4) { idle with statusDone := true, doneUnseen := true, reads := [v] } =
        .next { idle with statusDone := true, doneUnseen := true, reads := [v, v] }) ∧
    after (fun t => (t.reads, t.doneUnseen))
      (hostAccess (.rd 0x18 4) { idle with statusDone := true, doneUnseen := true }) = some ([2], false) :=
  ⟨⟨_, rfl, rfl⟩, by decide⟩

/-- R250: after a reset that interrupted a PACK of one frame its four bytes read, and the fifth is unwritten; a MONO's
two bytes are all it may have written, and a failed command's none. -/
theorem test_interrupted_operation :
    (∃ v, hostAccess (.rdb .obuf 0 4) (releaseReset (assertReset (running 1 0 2 16 4 []))) = .next v) ∧
    hostAccess (.rdb .obuf 4 1) (releaseReset (assertReset (running 1 0 2 16 4 []))) = .fault .unwrittenOutput ∧
    (releaseReset (assertReset (running 0 0 2 16 4 []))).abandonedLen = 2 ∧
    (releaseReset (assertReset (running 1 0 1 16 4 []))).abandonedLen = 0 := ⟨⟨_, rfl⟩, rfl, by decide, by decide⟩

/-- R103: `FRAME 0, 100, -50` makes the bytes of P2's first frame. -/
theorem test_pseudoFrame :
    pseudoFrame 0 100 (-50) = [.wrb .ibuf 0 2 0x0064, .wrb .ibuf 2 2 0xFFCE] ∧
    pseudoRun (encode .monoSum) = [.wr 0x04 4 0x00000200, .wr 0x00 4 1, .wait] := by decide

/-! ## The hypotheses of the statements are met -/

/-- A running operation whose four-byte payload is the frame (100, -50). -/
def ready (op : BitVec 4) : State := running op 0 2 32 4 [0x64, 0x00, 0xCE, 0xFF]

theorem ready_payload (op : BitVec 4) : (ready op).PayloadReady where
  inRange := by show (4#32).toNat ≤ 64; decide
  wholeFrames := by show (4#32).toNat % 4 = 0; decide
  written := by
    show ∀ a, a < 4 → (Memory.read (bytes [0x64, 0x00, 0xCE, 0xFF]) a).isSome
    decide

theorem idle_inv : idle.Inv :=
  ⟨⟨by decide, rfl, rfl, fun _ h => (nomatch h), fun _ h => (nomatch h), by decide⟩, ⟨by decide, by decide, by decide, by decide⟩,
    ⟨by decide, by decide, ⟨Nat.zero_le _, fun a h => absurd h (Nat.not_lt_zero a)⟩⟩⟩

/-- An idle block whose last operation was MONO.LEFT of one frame. -/
def finished : State :=
  { idle with statusDone := true, outChannels := 1, outBits := 16, outLen := 2, obuf := bytes [0x64, 0x00] }

/-- The same block before the host has seen DONE = 1. -/
def unseen : State := { finished with doneUnseen := true }

/-- A block whose four-byte PACK a reset interrupted. -/
def interrupted : State := releaseReset (assertReset (ready 1))

theorem finished_inv : finished.Inv :=
  ⟨⟨by decide, rfl, rfl, fun _ h => (nomatch h), by
      intro c h; simp [finished, bytes, storeBytes, Memory.write] at h; rcases h with rfl | rfl <;> decide, by decide⟩,
    ⟨by decide, by decide, by decide, by decide⟩,
    ⟨by decide, by decide, ⟨by decide, by show ∀ a, a < 2 → _; decide⟩⟩⟩

theorem started_inv : (idle.acceptStart).Inv :=
  ⟨⟨by decide, rfl, rfl, fun _ h => (nomatch h), fun _ h => (nomatch h), by decide⟩, ⟨by decide, by decide, by decide, by decide⟩,
    ⟨by decide, by decide, ⟨Nat.zero_le _, fun a h => absurd h (Nat.not_lt_zero a)⟩⟩⟩

theorem witness_DecodeOfEncodeWhateverTheReservedBits :
    (Command.legal .unpack).wf = true ∧ (Command.monoInvalid 4#8).wf = true ∧ (Command.monoInvalid 255#8).wf = true ∧
    (Command.illegal 3#4).wf = true ∧ (Command.illegal 15#4).wf = true := by decide

theorem witness_MonoLeftCompletes : (ready 0).lat.ch = 2#16 ∧ (ready 0).PayloadReady := ⟨rfl, ready_payload 0⟩

theorem witness_MonoRightCompletes : (ready 0).lat.ch = 2#16 ∧ (ready 0).PayloadReady := ⟨rfl, ready_payload 0⟩

theorem witness_MonoSumCompletes : (ready 0).lat.ch = 2#16 ∧ (ready 0).PayloadReady := ⟨rfl, ready_payload 0⟩

theorem witness_MonoDiffCompletes : (ready 0).lat.ch = 2#16 ∧ (ready 0).PayloadReady := ⟨rfl, ready_payload 0⟩

theorem witness_PackCompletes : (ready 1).lat.ch = 2#16 ∧ (ready 1).PayloadReady := ⟨rfl, ready_payload 1⟩

theorem witness_UnpackCompletes : (ready 2).lat.bits = 32#16 ∧ (ready 2).PayloadReady := ⟨rfl, ready_payload 2⟩

/-- A success, which writes OBUF, and a failure, which does not. -/
theorem witness_InstructionFrame :
    (∃ t, exec .pack (ready 1) = .next t ∧ t.statusErr = 0#4 ∧ t.obuf ≠ (ready 1).obuf) ∧
    ∃ t, exec .pack (running 1 0 1 16 4 []) = .next t ∧ t.statusErr ≠ 0#4 :=
  ⟨⟨_, rfl, by decide, by decide⟩, ⟨_, rfl, by decide⟩⟩

theorem witness_WrongChannelCountIsChannelMismatch :
    (Instr.pack ≠ .unpack ∧ (running 1 0 1 16 4 []).lat.ch ≠ 2#16) ∧ ∃ t, exec .unpack (running 2 0 1 16 4 []) = .next t :=
  ⟨by decide, _, rfl⟩

theorem witness_WrongBitsIsFormatBits :
    (running 2 0 2 16 4 []).lat.bits ≠ 32#16 ∧ Instr.pack ≠ .unpack ∧
    ∃ t, exec .pack (running 1 0 1 16 4 []) = .next t := ⟨by decide, by decide, _, rfl⟩

theorem witness_TooLongIsLengthRange :
    (if Instr.pack = .unpack then (running 1 0 2 16 65 []).lat.bits = 32#16 else (running 1 0 2 16 65 []).lat.ch = 2#16) ∧
    (running 1 0 2 16 65 []).bufBytes < (running 1 0 2 16 65 []).lat.len.toNat := by decide

theorem witness_PartialFrameIsFormatLength :
    (if Instr.unpack = .unpack then (running 2 0 2 32 63 []).lat.bits = 32#16 else (running 2 0 2 32 63 []).lat.ch = 2#16) ∧
    (running 2 0 2 32 63 []).lat.len.toNat ≤ (running 2 0 2 32 63 []).bufBytes ∧
    (running 2 0 2 32 63 []).lat.len.toNat % 4 ≠ 0 := by decide

/-- With nothing scheduled the engine moves from the state itself. -/
theorem running_moves (op : BitVec 4) (mode : BitVec 8) (ch bits : Half) (len : Word) (payload : List Byte) :
    (running op mode ch bits len payload).EngineMovesFrom (running op mode ch bits len payload) :=
  ⟨rfl, rfl, .inl ⟨rfl, rfl⟩⟩

/-- A scheduled engine moves with its turn used up. -/
theorem scheduled_moves (op : BitVec 4) (mode : BitVec 8) (ch bits : Half) (len : Word) (payload : List Byte) :
    State.EngineMovesFrom { running op mode ch bits len payload with schedule := [.engine, .host] }
      { running op mode ch bits len payload with schedule := [.host] } :=
  ⟨rfl, rfl, .inr ⟨[.host], rfl, rfl⟩⟩

/-- Both branches, at the two ends of the invalid modes, on both of the engine's turns. -/
theorem witness_InvalidModeEndsWithItsError :
    ((running 0 4 2 16 0 []).EngineMovesFrom (running 0 4 2 16 0 []) ∧ (running 0 4 2 16 0 []).lat.op = 0#4 ∧
      4 ≤ (running 0 4 2 16 0 []).lat.mode.toNat ∧ (running 0 4 2 16 0 []).lat.ch = 2#16) ∧
    (State.EngineMovesFrom { running 0 255 1 16 0 [] with schedule := [.engine, .host] }
        { running 0 255 1 16 0 [] with schedule := [.host] } ∧
      4 ≤ (running 0 255 1 16 0 []).lat.mode.toNat ∧ (running 0 255 1 16 0 []).lat.ch ≠ 2#16) :=
  ⟨⟨running_moves .., by decide, by decide, by decide⟩, scheduled_moves .., by decide, by decide⟩

theorem witness_ReservedOpIsIllegalOp :
    (running 3 0 2 16 4 []).EngineMovesFrom (running 3 0 2 16 4 []) ∧ 3 ≤ (running 3 0 2 16 4 []).lat.op.toNat :=
  ⟨running_moves .., by decide⟩

/-- Both sides of the equivalence hold of a payload whose last byte was never written. -/
theorem witness_UnwrittenPayloadIsTheOnlyStop :
    exec .pack (running 1 0 2 16 4 [0x64, 0x00, 0xCE]) = .fault .unwrittenInput ∧
    (running 1 0 2 16 4 [0x64, 0x00, 0xCE]).lat.ch = 2#16 ∧ 3 < (running 1 0 2 16 4 [0x64, 0x00, 0xCE]).lat.len.toNat ∧
    Memory.read (running 1 0 2 16 4 [0x64, 0x00, 0xCE]).ibuf 3 = none :=
  ⟨rfl, by decide, by decide, by decide⟩

theorem witness_StepRunsTheLatchedInstruction :
    (latchedCommand (ready 1) = .legal .pack ∧ (ready 1).statusBusy = true ∧ (ready 1).inReset = false ∧
      (ready 1).schedule = []) ∧
    latchedCommand { ready 1 with schedule := [.engine, .host] } = .legal .pack ∧
    ({ ready 1 with schedule := [.engine, .host] } : State).schedule = .engine :: [.host] := by decide

theorem witness_PlacedWordRunsNext : decodeTableWord 32 0x00000200 = some .monoSum := by decide

theorem witness_CompletionIsCheckThenDispatch :
    (ready 2).EngineMovesFrom (ready 2) ∧
    State.EngineMovesFrom { ready 2 with schedule := [.engine, .host] } { ready 2 with schedule := [.host] } :=
  ⟨running_moves .., scheduled_moves ..⟩

theorem witness_RunningOperationEnds :
    (ready 1).EngineMovesFrom (ready 1) ∧ Memory.WrittenBelow (ready 1).ibuf (ready 1).lat.len.toNat :=
  ⟨running_moves .., (ready_payload 1).written⟩

/-- Two different states with one latched operation and payload. -/
theorem witness_OperationsAreIsolated :
    let s := ready 1
    let s' : State := { ready 1 with obuf := bytes [1, 2, 3, 4, 5], inRate := 8000, outLen := 9 }
    s.EngineMovesFrom s ∧ s'.EngineMovesFrom s' ∧
    s.lat = s'.lat ∧ s.bufBytes = s'.bufBytes ∧ s ≠ s' ∧
    ∀ a, a < s.lat.len.toNat → Memory.read s.ibuf a = Memory.read s'.ibuf a :=
  ⟨running_moves .., ⟨rfl, rfl, .inl ⟨rfl, rfl⟩⟩, rfl, rfl, fun h => absurd (congrArg State.outLen h) (by decide), fun _ _ => rfl⟩

theorem witness_SelectorFloorsAndNeverOverflows : FitsS16 (-32768) ∧ FitsS16 32767 := by decide

/-- A word of PACK's image and a word outside it. -/
theorem witness_PackImageIsEqualParity :
    (0xFFFFFFFF#32).getLsbD 16 = (0xFFFFFFFF#32).getLsbD 0 ∧ (0xFFFF0000#32).getLsbD 16 ≠ (0xFFFF0000#32).getLsbD 0 := by
  decide

theorem witness_UnpackFitsAndFloors :
    (0x80008000#32).getLsbD 16 = (0x80008000#32).getLsbD 0 ∧ (0x80007FFF#32).getLsbD 16 ≠ (0x80007FFF#32).getLsbD 0 := by
  decide

/-- A frame that round-trips, at the edge of the range, and one that does not. -/
theorem witness_FrameRoundTrip :
    (FitsS16 (-16384) ∧ FitsS16 16383 ∧ FitsS16 (-16384 + 16383) ∧ FitsS16 (-16384 - 16383)) ∧
    (FitsS16 30000 ∧ ¬ FitsS16 (30000 + 30000)) ∧
    (-16384 ≤ (-16384 : Int) ∧ (-16384 : Int) ≤ 16383 ∧ -16384 ≤ (16383 : Int) ∧ (16383 : Int) ≤ 16383) := by decide

/-- The PACK of (100, -50) and the UNPACK of its output. -/
theorem witness_StreamRoundTrip :
    let s := ready 1
    let u := running 2 0 7 32 4 [0x96, 0x00, 0x32, 0x00]
    u.lat.bits = 32#16 ∧ u.lat.len = s.lat.len ∧ u.lat.rate = s.lat.rate ∧ u.bufBytes = s.bufBytes ∧
    ∃ t, exec .pack s = .next t ∧ t.statusErr = 0#4 ∧ ∀ a, a < s.lat.len.toNat → Memory.read u.ibuf a = Memory.read t.obuf a :=
  ⟨rfl, rfl, rfl, rfl, _, rfl, rfl, by show ∀ a, a < 4 → _; decide⟩

theorem witness_StepMakesTheHostsAccess :
    let s : State := { idle with hostOps := [.rd 0x18 4] }
    (s.hostOps = .rd 0x18 4 :: [] ∧ s.schedule = [] ∧ s.statusBusy = false) ∧
    ({ s with schedule := [.host] } : State).schedule = .host :: [] := by decide

theorem witness_AcceptedStartLatches :
    idle.inReset = false ∧ idle.statusBusy = false ∧ (1#32).getLsbD 0 = true := by decide

/-- A START while busy, and a write with bit 0 clear. -/
theorem witness_OtherCtrlWritesHaveNoEffect :
    ((ready 1).inReset = false ∧ (ready 1).statusBusy = true) ∧ idle.inReset = false ∧
    (0xFFFFFFFE#32).getLsbD 0 = false := by decide

/-- The first read-only offset and the last reserved one. -/
theorem witness_RegisterWritesStoreTheirFields :
    idle.inReset = false ∧ (0x18 % 4 = 0 ∧ 0x18 ≤ 0x18 ∧ 0x18 ≤ 0x3C) ∧ (0x3C % 4 = 0 ∧ 0x18 ≤ 0x3C ∧ 0x3C ≤ 0x3C) := by
  decide

/-- After DONE = 1 was seen, and before. -/
theorem witness_RegisterReadsReturnTheirFields :
    (finished.inReset = false ∧ finished.statusBusy = false ∧ finished.doneUnseen = false) ∧
    unseen.inReset = false ∧ unseen.statusBusy = false ∧ unseen.doneUnseen = true := by decide

theorem witness_ReadsWhileBusy :
    idle.acceptStart.Inv ∧ idle.acceptStart.inReset = false ∧ idle.acceptStart.statusBusy = true :=
  ⟨started_inv, rfl, rfl⟩

/-- The last legal four-byte read. -/
theorem witness_OutputReadsWhileBusyAreFree :
    (ready 1).inReset = false ∧ (ready 1).statusBusy = true ∧ 0x24 ∈ [0x24, 0x28, 0x2C, 0x30] ∧ 4 ∈ [1, 2, 4] ∧
    60 + 4 ≤ (ready 1).bufBytes := by decide

/-- Three ways to be refused, and the last legal access. -/
theorem witness_BadRegisterAccessIsRefused :
    ¬ (4 = 4 ∧ 0x40 % 4 = 0 ∧ 0x40 ≤ 0x3C) ∧ ¬ (4 = 4 ∧ 0x19 % 4 = 0 ∧ 0x19 ≤ 0x3C) ∧
    ¬ (2 = 4 ∧ 0x18 % 4 = 0 ∧ 0x18 ≤ 0x3C) ∧ (4 = 4 ∧ 0x3C % 4 = 0 ∧ 0x3C ≤ 0x3C) := by decide

theorem witness_IbufWriteThenRead :
    idle.inReset = false ∧ idle.statusBusy = false ∧ idle.doneUnseen = false ∧ 4 ∈ [1, 2, 4] ∧ 60 + 4 ≤ idle.bufBytes := by decide

theorem witness_MixedWidthViews :
    3 < 4 ∧ memRead (Memory.read (memWrite [] 0 4 0xBE016667)) (0 + 3) 1 = some 0xBE := by decide

/-- A read of two written bytes, one that takes in an unwritten byte, and the last byte of an interrupted operation. -/
theorem witness_ObufReads :
    finished.inReset = false ∧ finished.statusBusy = false ∧ finished.doneUnseen = false ∧ 2 ∈ [1, 2, 4] ∧
    0 + 2 ≤ finished.bufBytes ∧
    (∀ j, j < 2 → (Memory.read finished.obuf (0 + j)).isSome) ∧
    (Memory.read finished.obuf (1 + 1) = none ∧ finished.abandonedLen ≤ 1 + 1) ∧
    (Memory.read interrupted.obuf (0 + 3) = none ∧ 0 + 3 < interrupted.abandonedLen) := by decide

theorem witness_BufferOwnership :
    (ready 1).inReset = false ∧ 1 ∈ [1, 2, 4] ∧ 63 + 1 ≤ (ready 1).bufBytes ∧ (ready 1).statusBusy = true ∧
    (unseen.inReset = false ∧ unseen.statusBusy = false ∧ unseen.doneUnseen = true) := by decide

/-- A width of 3, and an access that passes the end. -/
theorem witness_BadBufferAccessIsRefused :
    ¬ (3 ∈ [1, 2, 4] ∧ 0 + 3 ≤ idle.bufBytes) ∧ ¬ (2 ∈ [1, 2, 4] ∧ 63 + 2 ≤ idle.bufBytes) := by decide

theorem witness_OnlyStartTouchesTheEnginesState :
    (∃ t, hostAccess (.wr 0x04 4 3) (ready 1) = .next t) ∧
    ∀ v, HostOp.wr 0x04 4 3 = .wr 0x00 4 v → v.getLsbD 0 = true → (ready 1).statusBusy = true :=
  ⟨⟨_, rfl⟩, fun _ _ _ => rfl⟩

/-- WAIT after a completion, and WAIT while busy. -/
theorem witness_WaitPollsDone :
    (finished.inReset = false ∧ finished.statusDone = true) ∧ (ready 1).inReset = false ∧
    (ready 1).statusDone = false := by decide

theorem witness_WaitWithoutStartHangs :
    let s : State := { idle with hostOps := [.wait] }
    s.schedule = [] ∧ s.inReset = false ∧ s.statusBusy = false ∧ s.statusDone = false ∧ s.hostOps = .wait :: [] := by
  decide

theorem witness_StartThenWaitEnds :
    let s : State := { idle with hostOps := pseudoStart ++ .wait :: [], inLen := 4, ibuf := bytes [1, 2, 3, 4] }
    s.schedule = [] ∧ s.inReset = false ∧ s.statusBusy = false ∧ s.hostOps = pseudoStart ++ .wait :: [] ∧
    Memory.WrittenBelow s.ibuf s.inLen.toNat :=
  ⟨rfl, rfl, rfl, rfl, by show ∀ a, a < 4 → _; decide⟩

theorem witness_AssertedResetHoldsTheBlock :
    let s : State := { ready 1 with inReset := true }
    (s.inReset = true ∧ s.statusBusy = true ∧ (0x3C % 4 = 0 ∧ 0x3C ≤ 0x3C) ∧ 4 ∈ [1, 2, 4] ∧ 60 + 4 ≤ s.bufBytes) ∧
    (ready 1).inReset = false := by decide

theorem witness_ReleasedResetRestoresResetValues :
    (assertReset (ready 1)).inReset = true ∧
    ∃ t, takeTurn .releaseReset (assertReset (ready 1)) = .next t ∧ 0 + 4 ≤ t.abandonedLen := ⟨rfl, _, rfl, by decide⟩

theorem witness_EveryStepKeepsInv : idle.acceptStart.Inv ∧ ∃ t, step idle.acceptStart = .next t :=
  ⟨started_inv, _, rfl⟩

theorem witness_OnlyStartWakesTheBlock :
    let s : State := { idle with hostOps := [.wr 0x00 4 1] }
    s.statusBusy = false ∧ ∃ t, step s = .next t ∧ t.statusBusy = true := ⟨rfl, _, rfl, rfl⟩

/-- The host writes CMD while an operation runs. -/
theorem witness_RunningCommandIsFixed :
    let s : State := { ready 1 with schedule := [.host], hostOps := [.wr 0x04 4 3] }
    s.statusBusy = true ∧ ∃ t, step s = .next t ∧ t.statusBusy = true ∧ t.cmdOp = 3 := ⟨rfl, _, rfl, rfl, rfl⟩

theorem witness_BufferSizeNeverChanges : ∃ t, step (ready 1) = .next t := ⟨_, rfl⟩

theorem witness_OutputPayloadIsReadable :
    finished.Inv ∧ finished.inReset = false ∧ finished.statusBusy = false ∧ finished.doneUnseen = false ∧
    2 ∈ [1, 2, 4] ∧ 0 + 2 ≤ finished.outLen.toNat := ⟨finished_inv, rfl, rfl, rfl, by decide, by decide⟩

/-- The first and the last register of the list, and the last legal four-byte read. -/
theorem witness_ResultReadsBeforeDoneIsSeenAreFree :
    unseen.inReset = false ∧ unseen.statusBusy = false ∧ unseen.doneUnseen = true ∧
    0x1C ∈ [0x1C, 0x20, 0x24, 0x28, 0x2C, 0x30] ∧ 0x30 ∈ [0x1C, 0x20, 0x24, 0x28, 0x2C, 0x30] ∧ 4 ∈ [1, 2, 4] ∧
    60 + 4 ≤ unseen.bufBytes := by decide

/-- The window closes at a read of STATUS, at a WAIT, and at the release of reset. -/
theorem witness_HazardWindowClosesOnlyWhenDoneIsSeen :
    unseen.doneUnseen = true ∧
    (∃ t, step { unseen with hostOps := [.rd 0x18 4] } = .next t ∧ t.doneUnseen = false) ∧
    (∃ t, step { unseen with hostOps := [.wait] } = .next t ∧ t.doneUnseen = false) ∧
    ∃ t, step { unseen with inReset := true, schedule := [.releaseReset] } = .next t ∧ t.doneUnseen = false :=
  ⟨rfl, ⟨_, rfl, rfl⟩, ⟨_, rfl, rfl⟩, _, rfl, rfl⟩

/-- While an operation runs, a read of written bytes and one that takes in a byte nothing has written. -/
theorem witness_IbufReads :
    (ready 1).inReset = false ∧ 4 ∈ [1, 2, 4] ∧ 0 + 4 ≤ (ready 1).bufBytes ∧
    (Memory.read (ready 1).ibuf (0 + 3)).isSome ∧ 60 + 4 ≤ (ready 1).bufBytes ∧
    Memory.read (ready 1).ibuf (60 + 3) = none := by decide

/-- A release of an asserted reset, and a host step. -/
theorem witness_UnwrittenIbufIsRedrawnOnlyByReset :
    (∃ t, step { unseen with inReset := true, schedule := [.releaseReset] } = .next t) ∧
    ∃ t, step { unseen with hostOps := [.rd 0x18 4] } = .next t := ⟨⟨_, rfl⟩, _, rfl⟩

/-- Two reads of an unseen result with a read of IBUF between them. -/
theorem witness_ReadsAreIdempotentWhileIdle :
    unseen.statusBusy = false ∧ (HostOp.rd 0x30 4).isRead = true ∧
    ∃ t u, hostAccess (.rd 0x30 4) unseen = .next t ∧ ReadsLead t [.rdb .ibuf 0 1] u ∧ u.doneUnseen = t.doneUnseen :=
  ⟨rfl, rfl, _, _, rfl, ⟨rfl, _, rfl, rfl⟩, rfl⟩

end Sys2Proof.Tests
end

section
/-! SUPPORT. The byte-level view of a buffer write: any slice of the written run, read back at any width. -/

namespace Sys2Proof.Machine

/-! ## Little-endian slices -/

/-- The `j`-th little-endian byte of a value is its `j`-th 8-bit slice (spec/00_scope.md R10). -/
theorem leBytes_getElem? {n j : Nat} (v : Word) (hj : j < n) :
    (leBytes n v)[j]? = some (v.extractLsb' (8 * j) 8) := by
  induction n generalizing v j with
  | zero => omega
  | succ n ih =>
    cases j with
    | zero => simp [leBytes, BitVec.setWidth_eq_extractLsb']
    | succ j =>
      have hshift : (v >>> 8).extractLsb' (8 * j) 8 = v.extractLsb' (8 * (j + 1)) 8 := by
        ext i hi
        simp [Nat.mul_succ, Nat.add_comm, Nat.add_left_comm]
      simpa [leBytes, hshift] using ih (v >>> 8) (Nat.lt_of_succ_lt_succ hj)

/-- The value of the low `k` little-endian bytes is the low `8 * k` bits, zero-extended. -/
theorem leWord_leBytes (k : Nat) (v : Word) : leWord (leBytes k v) = (v.extractLsb' 0 (8 * k)).setWidth 32 := by
  apply BitVec.eq_of_toNat_eq
  have hfits : v.toNat % 2 ^ (8 * k) < 2 ^ 32 := (Nat.mod_le _ _).trans_lt v.isLt
  rw [leWord_leBytes_toNat, BitVec.toNat_setWidth, BitVec.extractLsb'_toNat, Nat.shiftRight_zero,
    Nat.mod_eq_of_lt hfits]

/-- A write of `n` bytes leaves the slices of its value in its run (spec/20_memory.md R63). -/
theorem Memory.read_memWrite_of_inside (m : Memory) (a : Nat) {n j : Nat} (v : Word) (hj : j < n) :
    Memory.read (memWrite m a n v) (a + j) = some (v.extractLsb' (8 * j) 8) := by
  rw [memWrite, Memory.read_storeBytes, leBytes_length, if_pos (by omega), Nat.add_sub_cancel_left,
    leBytes_getElem? v hj]

/-- A read of `k` bytes, `i` bytes into a written run, gives the `8 * k` bits of the written value from bit `8 * i` up
(R64). -/
theorem memRead_memWrite_slice (m : Memory) (a : Nat) {n i k : Nat} (v : Word) (hik : i + k ≤ n) :
    memRead (Memory.read (memWrite m a n v)) (a + i) k = some ((v.extractLsb' (8 * i) (8 * k)).setWidth 32) := by
  have hbytes : ∀ j, j < k → Memory.read (memWrite m a n v) (a + i + j) = (leBytes k (v >>> (8 * i)))[j]? := by
    intro j hj
    rw [Nat.add_assoc, Memory.read_memWrite_of_inside m a v (by omega), leBytes_getElem? _ hj]
    congr 1
    ext b hb
    simp [Nat.mul_add, Nat.add_assoc]
  rw [memRead_of_bytes hbytes, leWord_leBytes]
  congr 2

/-- What was written is read back at the same width. -/
theorem memRead_memWrite (m : Memory) (a n : Nat) (v : Word) :
    memRead (Memory.read (memWrite m a n v)) a n = some (BitVec.ofNat 32 (v.toNat % 2 ^ (8 * n))) := by
  obtain ⟨w, hw, hval⟩ := Option.map_eq_some_iff.1 (memRead_memWrite_toNat m a n v)
  rw [hw, ← hval, BitVec.ofNat_toNat, BitVec.setWidth_eq]

/-! ## The host's accesses to IBUF -/

theorem bufAccessOk_iff (bufBytes a n : Nat) :
    bufAccessOk bufBytes a n = true ↔ n ∈ [1, 2, 4] ∧ a + n ≤ bufBytes := by
  simp [bufAccessOk]

/-- A legal host write to IBUF outside the hazard window is the memory write (spec/40_control.md R123,
spec/70_reset_and_hazards.md R254). -/
theorem hostAccess_wrb_ibuf {s : State} {a n : Nat} (v : Word) (ho : bufAccessOk s.bufBytes a n = true)
    (hr : s.inReset = false) (hw : engineOwns s = false) :
    hostAccess (.wrb .ibuf a n v) s = .next { s with ibuf := memWrite s.ibuf a n v } := by
  simp [hostAccess, hostWrb, ho, hr, hw]

/-- A legal host read of IBUF replies with the bytes the host sees there. -/
theorem hostAccess_rdb_ibuf {s : State} {a n : Nat} {v : Word} (ho : bufAccessOk s.bufBytes a n = true)
    (hr : s.inReset = false) (hv : memRead (ibufByte s) a n = some v) :
    hostAccess (.rdb .ibuf a n) s = .next (s.reply v) := by
  simp [hostAccess, hostRdb, ho, hr, hv]

/-- Where IBUF has been written, the host sees what it holds. -/
theorem ibufByte_of_written {s : State} {a : Nat} (h : (Memory.read s.ibuf a).isSome) :
    ibufByte s a = Memory.read s.ibuf a := by
  obtain ⟨b, hb⟩ := Option.isSome_iff_exists.1 h
  simp [ibufByte, hb]

/-- A read of written IBUF bytes is the read of the memory: the free value of log 5 does not enter. -/
theorem memRead_ibufByte_of_written {s : State} {a n : Nat} {v : Word}
    (h : memRead (Memory.read s.ibuf) a n = some v) : memRead (ibufByte s) a n = some v := by
  have hwritten := (memRead_isSome (Memory.read s.ibuf) a n).1 (by simp [h])
  rw [← h]
  exact memRead_congr fun j hj => ibufByte_of_written (hwritten j hj)

/-! ## The statements on written words -/

/-- Settles O38: the memory the write leaves is `memWrite`'s, and the read back sees written bytes only. -/
theorem ibufWriteThenRead : Obligations.IbufWriteThenRead := by
  intro s a n v hr hb hu hn ha
  have ho : bufAccessOk s.bufBytes a n = true := (bufAccessOk_iff _ _ _).2 ⟨hn, ha⟩
  have hw : engineOwns s = false := by simp [engineOwns, hb, hu]
  refine ⟨memWrite s.ibuf a n v, hostAccess_wrb_ibuf v ho hr hw, ?_, ?_, ?_⟩
  · exact Memory.read_memWrite_of_outside s.ibuf a n v
  · exact fun j hj => Memory.read_memWrite_of_inside s.ibuf a v hj
  · exact hostAccess_rdb_ibuf ho hr (memRead_ibufByte_of_written (memRead_memWrite s.ibuf a n v))

/-- Settles O39: each view is a slice of the written run, at offset and width 0+4, 0+2, 2+2 and j+1. -/
theorem mixedWidthViews : Obligations.MixedWidthViews := by
  intro m a v
  refine ⟨?_, ?_, ?_, fun j hj => ?_⟩
  · simpa using memRead_memWrite_slice m a (i := 0) (k := 4) v le_rfl
  · exact memRead_memWrite_slice m a (i := 0) (k := 2) v (by decide)
  · exact memRead_memWrite_slice m a (i := 2) (k := 2) v le_rfl
  · exact memRead_memWrite_slice m a (k := 1) v hj

end Sys2Proof.Machine
end

section
/-! SUPPORT. What a completion and a host access do to the state, said once, and the buffer size along a step. -/

namespace Sys2Proof.Machine

/-! ## The end of an operation -/

/-- The two ways an operation ends from `s` (spec/40_control.md R127, spec/60_exceptions.md R222). -/
inductive Ended (s : State) : State → Prop
  | failed (e : OpError) : Ended s (s.raiseError e)
  | succeeded (m : Memory) (ch bits : Half) (len : Word) : Ended s (State.complete ch bits len { s with obuf := m })

theorem exec_ended {i : Instr} {s t : State} (h : exec i s = .next t) : Ended s t := by
  obtain ⟨out, body, ch, bits, shape⟩ := instr_shape i
  rw [shape.exec_eq] at h
  obtain ⟨e, -, hrun⟩ | ⟨-, -, hrun⟩ | ⟨m, -, -, hrun⟩ := runOperation_cases i (body s.ibuf) ch bits _ s <;>
    rw [hrun] at h <;> cases h
  · exact .failed e
  · exact .succeeded m ch bits _

/-- A completion step that answers a next state has ended the operation. -/
theorem completionStep_ended {s t : State} (h : completionStep s = .next t) : Ended s t := by
  unfold completionStep at h
  split at h
  · exact exec_ended h
  · cases h; exact .failed _
  · cases h; exact .failed _

/-! ## The host's accesses -/

/-- DONE is bit 1 of STATUS (spec/10_state.md R29). -/
theorem statusWord_getLsbD_one (s : State) : (statusWord s).getLsbD 1 = s.statusDone := by
  calc (statusWord s).getLsbD 1
      = (0#20 ++ s.statusErr ++ 0#6 ++ BitVec.ofBool s.statusDone).getLsbD 0 := BitVec.getLsbD_append
    _ = (BitVec.ofBool s.statusDone).getLsbD 0 := BitVec.getLsbD_append
    _ = s.statusDone := by simp

/-- A poll of `WAIT` sees DONE = 1 exactly when it is 1 and reset is not asserted (spec/40_control.md R129,
spec/70_reset_and_hazards.md R250). -/
theorem polledStatus_getLsbD_one (s : State) : (polledStatus s).getLsbD 1 = (!s.inReset && s.statusDone) := by
  cases hr : s.inReset with
  | true => simp [polledStatus, hr]
  | false => simp only [polledStatus, hr]; exact statusWord_getLsbD_one s

/-- Every way an access of the host is answered from `s`, with the conditions it is answered so under. -/
inductive HostEffect (s : State) : HostOp → State → Prop
  | rdHeld (off width : Nat) : regAccessOk off width = true → s.inReset = true →
      HostEffect s (.rd off width) (s.reply 0)
  | rdDrawn (off width : Nat) : regAccessOk off width = true → s.inReset = false →
      (s.statusBusy && isOutReg off) = true → HostEffect s (.rd off width) (s.replyAny 4)
  | rd (off width : Nat) : regAccessOk off width = true → s.inReset = false →
      (s.statusBusy && isOutReg off) = false →
      HostEffect s (.rd off width) (State.reply (visibleReg s off) (s.noteRead off))
  | wrHeld (off width : Nat) (v : Word) : regAccessOk off width = true → s.inReset = true →
      HostEffect s (.wr off width v) s
  | wr (off width : Nat) (v : Word) : regAccessOk off width = true → s.inReset = false →
      HostEffect s (.wr off width v) (writeReg s off v)
  | rdbHeld (b : Buffer) (a n : Nat) : bufAccessOk s.bufBytes a n = true → s.inReset = true →
      HostEffect s (.rdb b a n) (s.reply 0)
  | rdbIbuf (a n : Nat) : bufAccessOk s.bufBytes a n = true → s.inReset = false →
      HostEffect s (.rdb .ibuf a n) (s.reply ((memRead (ibufByte s) a n).getD 0))
  | rdbObufDrawn (a n : Nat) : bufAccessOk s.bufBytes a n = true → s.inReset = false → s.statusBusy = true →
      HostEffect s (.rdb .obuf a n) (s.replyAny n)
  | rdbObuf (a n : Nat) (v : Word) : bufAccessOk s.bufBytes a n = true → s.inReset = false → s.statusBusy = false →
      memRead (obufByte s) a n = some v → HostEffect s (.rdb .obuf a n) (s.reply v)
  | wrbHeld (b : Buffer) (a n : Nat) (v : Word) : bufAccessOk s.bufBytes a n = true → s.inReset = true →
      HostEffect s (.wrb b a n v) s
  | wrbObuf (a n : Nat) (v : Word) : bufAccessOk s.bufBytes a n = true → s.inReset = false →
      HostEffect s (.wrb .obuf a n v) s
  | wrbIbuf (a n : Nat) (v : Word) : bufAccessOk s.bufBytes a n = true → s.inReset = false → engineOwns s = false →
      HostEffect s (.wrb .ibuf a n v) { s with ibuf := memWrite s.ibuf a n v }
  | waitDone : s.inReset = false → s.statusDone = true →
      HostEffect s .wait (State.reply (polledStatus s) (s.noteRead 0x18))
  | waitPending : (!s.inReset && s.statusDone) = false →
      HostEffect s .wait (State.reply (polledStatus s) { s with hostOps := .wait :: s.hostOps })

/-- Everything an answered host access can have done. -/
theorem hostAccess_effect {h : HostOp} {s t : State} (ht : hostAccess h s = .next t) : HostEffect s h t := by
  cases h with
  | rd off width =>
    simp only [hostAccess, hostRd] at ht
    split_ifs at ht with ho hr hd <;> cases ht
    · exact .rdHeld _ _ (by simpa using ho) hr
    · exact .rdDrawn _ _ (by simpa using ho) (by simpa using hr) hd
    · exact .rd _ _ (by simpa using ho) (by simpa using hr) (by simpa using hd)
  | wr off width v =>
    simp only [hostAccess, hostWr] at ht
    split_ifs at ht with ho hr <;> cases ht
    · exact .wrHeld _ _ _ (by simpa using ho) hr
    · exact .wr _ _ _ (by simpa using ho) (by simpa using hr)
  | rdb b a n =>
    cases b with
    | ibuf =>
      simp only [hostAccess, hostRdb] at ht
      split_ifs at ht with ho hr <;> cases ht
      · exact .rdbHeld _ _ _ (by simpa using ho) hr
      · exact .rdbIbuf _ _ (by simpa using ho) (by simpa using hr)
    | obuf =>
      simp only [hostAccess, hostRdb] at ht
      split_ifs at ht with ho hr hb
      · cases ht; exact .rdbHeld _ _ _ (by simpa using ho) hr
      · cases ht; exact .rdbObufDrawn _ _ (by simpa using ho) (by simpa using hr) hb
      · split at ht <;> cases ht
        exact .rdbObuf _ _ _ (by simpa using ho) (by simpa using hr) (by simpa using hb) ‹_›
  | wrb b a n v =>
    cases b with
    | obuf =>
      simp only [hostAccess, hostWrb] at ht
      split_ifs at ht with ho hr <;> cases ht
      · exact .wrbHeld _ _ _ _ (by simpa using ho) hr
      · exact .wrbObuf _ _ _ (by simpa using ho) (by simpa using hr)
    | ibuf =>
      simp only [hostAccess, hostWrb] at ht
      split_ifs at ht with ho hr hw <;> cases ht
      · exact .wrbHeld _ _ _ _ (by simpa using ho) hr
      · exact .wrbIbuf _ _ _ (by simpa using ho) (by simpa using hr) (by simpa using hw)
  | wait =>
    simp only [hostAccess, hostWait, polledStatus_getLsbD_one] at ht
    split_ifs at ht with hd <;> cases ht
    · obtain ⟨hr, hdone⟩ : s.inReset = false ∧ s.statusDone = true := by simpa using hd
      exact .waitDone hr hdone
    · exact .waitPending (by simpa using hd)

/-! ## The buffer size -/

theorem Ended.bufBytes_eq {s t : State} (h : Ended s t) : t.bufBytes = s.bufBytes := by
  cases h <;> simp

@[simp] theorem writeReg_bufBytes (s : State) (off : Nat) (v : Word) : (writeReg s off v).bufBytes = s.bufBytes := by
  unfold writeReg State.start
  split_ifs <;> simp

theorem HostEffect.bufBytes_eq {h : HostOp} {s t : State} (ht : HostEffect s h t) : t.bufBytes = s.bufBytes := by
  cases ht <;> simp

/-- The release of reset keeps the implementation's buffer size (spec/00_scope.md R7; log 2). -/
@[simp] theorem releaseReset_bufBytes (s : State) : (releaseReset s).bufBytes = s.bufBytes := by
  unfold releaseReset
  split <;> rfl

/-- Settles O54, by what each agent's turn can have done. -/
theorem bufferSizeNeverChanges : Obligations.BufferSizeNeverChanges := by
  intro s t h
  cases step_moved h with
  | host op rest turns t _ hacc => exact (hostAccess_effect hacc).bufBytes_eq
  | engine turns t _ _ hend => exact (completionStep_ended hend).bufBytes_eq
  | idle turns => rfl
  | asserted turns => rfl
  | released turns _ => exact releaseReset_bufBytes _

end Sys2Proof.Machine
end

section
/-! SUPPORT. The register window as the host meets it: what each write of a register does, what each read returns, and
the statements on single accesses and on the placed command word. -/

namespace Sys2Proof.Machine

/-! ## Register writes -/

/-- A legal register write outside reset is `writeReg` (spec/40_control.md R121). -/
theorem hostAccess_wr {s : State} {off : Nat} (v : Word) (ho : regAccessOk off 4 = true) (hr : s.inReset = false) :
    hostAccess (.wr off 4 v) s = .next (writeReg s off v) := by
  simp [hostAccess, hostWr, ho, hr]

@[simp] theorem writeReg_ctrl (s : State) (v : Word) :
    writeReg s 0x00 v = if v.getLsbD 0 then s.start else s := rfl

@[simp] theorem writeReg_cmd (s : State) (v : Word) :
    writeReg s 0x04 v = { s with cmdOp := opField v, cmdMode := modeField v } := rfl

@[simp] theorem writeReg_inChannels (s : State) (v : Word) :
    writeReg s 0x08 v = { s with inChannels := v.setWidth 16 } := rfl

@[simp] theorem writeReg_inBits (s : State) (v : Word) : writeReg s 0x0C v = { s with inBits := v.setWidth 16 } := rfl

@[simp] theorem writeReg_inRate (s : State) (v : Word) : writeReg s 0x10 v = { s with inRate := v } := rfl

@[simp] theorem writeReg_inLen (s : State) (v : Word) : writeReg s 0x14 v = { s with inLen := v } := rfl

/-- STATUS, ERR_*, OUT_* and the reserved offsets ignore a write (spec/20_memory.md R61). -/
theorem writeReg_of_readOnly (s : State) {off : Nat} (v : Word) (h : 0x18 ≤ off) : writeReg s off v = s := by
  unfold writeReg
  iterate 6 rw [if_neg (by omega)]

/-- The two things a register write can be: a START, or a store into CMD and IN_* (a write without effect stores what
they hold). -/
inductive RegisterWritten (s : State) : State → Prop
  | started : RegisterWritten s s.start
  | stored (op : BitVec 4) (mode : BitVec 8) (ch bits : Half) (rate len : Word) :
      RegisterWritten s
        { s with cmdOp := op, cmdMode := mode, inChannels := ch, inBits := bits, inRate := rate, inLen := len }

theorem writeReg_written (s : State) (off : Nat) (v : Word) : RegisterWritten s (writeReg s off v) := by
  unfold writeReg
  split_ifs
  · exact .started
  all_goals exact .stored _ _ _ _ _ _

/-- Settles O31: outside BUSY = 1 the write is `State.acceptStart`. -/
theorem acceptedStartLatches : Obligations.AcceptedStartLatches := by
  intro s v hr hb hv
  rw [hostAccess_wr v rfl hr, writeReg_ctrl, if_pos hv, State.start_of_idle s hb]
  rfl

/-- Settles O32: a dropped START and a write with bit 0 clear both leave the state. -/
theorem otherCtrlWritesHaveNoEffect : Obligations.OtherCtrlWritesHaveNoEffect := by
  intro s v hr hdrop
  rw [hostAccess_wr v rfl hr, writeReg_ctrl]
  obtain hb | hv := hdrop
  · rw [State.start_of_busy s hb, ite_self]
  · rw [hv]; rfl

/-- Settles O33: the stored fields are slices of the value. -/
theorem registerWritesStoreTheirFields : Obligations.RegisterWritesStoreTheirFields := by
  intro s v hr
  refine ⟨?_, ?_, ?_, ?_, ?_, fun off hoff hlow hhigh => ?_⟩
  · exact hostAccess_wr v rfl hr
  · rw [hostAccess_wr v rfl hr, writeReg_inChannels, BitVec.setWidth_eq_extractLsb' (by decide)]
  · rw [hostAccess_wr v rfl hr, writeReg_inBits, BitVec.setWidth_eq_extractLsb' (by decide)]
  · exact hostAccess_wr v rfl hr
  · exact hostAccess_wr v rfl hr
  · rw [hostAccess_wr v (by simp [regAccessOk, hoff, hhigh]) hr, writeReg_of_readOnly s v hlow]

/-! ## Register reads -/

/-- A register read that is neither of STATUS nor a draw (log 6) changes nothing but the list of what has been read
(spec/20_memory.md R70). -/
theorem hostAccess_rd_of_visible {s : State} {off : Nat} {v : Word} (ho : regAccessOk off 4 = true)
    (hr : s.inReset = false) (hu : (s.statusBusy && isOutReg off) = false) (hoff : off ≠ 0x18)
    (hv : visibleReg s off = v) :
    hostAccess (.rd off 4) s = .next { s with reads := s.reads ++ [v] } := by
  rw [hostAccess_rd ho hr hu, State.noteRead_of_ne off s hoff, hv]
  rfl

/-- CMD, IN_*, CTRL and the reserved offsets with what they read as, whatever the engine does. -/
def commandRegs (s : State) : List (Nat × Word) :=
  [(0x04, (s.cmdMode.setWidth 32 <<< 8) ||| s.cmdOp.setWidth 32), (0x08, s.inChannels.setWidth 32),
   (0x0C, s.inBits.setWidth 32), (0x10, s.inRate), (0x14, s.inLen), (0x00, 0#32), (0x34, 0#32), (0x38, 0#32),
   (0x3C, 0#32)]

/-- ERR_* with their contents. -/
def errorRegs (s : State) : List (Nat × Word) := [(0x1C, s.errFound), (0x20, s.errExpected)]

/-- OUT_* with their contents. -/
def outputRegs (s : State) : List (Nat × Word) :=
  [(0x24, s.outChannels.setWidth 32), (0x28, s.outBits.setWidth 32), (0x2C, s.outRate), (0x30, s.outLen)]

/-- The fields of CMD at their places in its word (spec/10_state.md R24). -/
theorem cmdWord_eq (s : State) : cmdWord s = (s.cmdMode.setWidth 32 <<< 8) ||| s.cmdOp.setWidth 32 := by
  unfold cmdWord
  generalize s.cmdMode = m
  generalize s.cmdOp = o
  ext i hi
  simp
  grind

/-- The fields of STATUS at their places in its word (R29). -/
theorem statusWord_eq (s : State) :
    statusWord s = (s.statusErr.setWidth 32 <<< 8) ||| (if s.statusDone then 2#32 else 0#32) |||
      (if s.statusBusy then 1#32 else 0#32) := by
  unfold statusWord
  generalize s.statusErr = e
  cases s.statusDone <;> cases s.statusBusy <;> revert e <;> decide

/-- Each of these registers shows its contents, in the hazard window too (R253 is about OUT_* and ERR_* alone). -/
theorem hostAccess_rd_commandRegs {s : State} (hr : s.inReset = false) {off : Nat} {v : Word}
    (h : (off, v) ∈ commandRegs s) :
    hostAccess (.rd off 4) s = .next { s with reads := s.reads ++ [v] } := by
  have hform : regAccessOk off 4 = true ∧ isOutReg off = false ∧ isErrReg off = false ∧ off ≠ 0x18 ∧
      readReg s off = v := by
    simp only [commandRegs, ← cmdWord_eq, List.mem_cons, Prod.mk.injEq, List.not_mem_nil, or_false] at h
    rcases h with ⟨rfl, rfl⟩ | ⟨rfl, rfl⟩ | ⟨rfl, rfl⟩ | ⟨rfl, rfl⟩ | ⟨rfl, rfl⟩ | ⟨rfl, rfl⟩ | ⟨rfl, rfl⟩ |
      ⟨rfl, rfl⟩ | ⟨rfl, rfl⟩ <;> exact ⟨rfl, rfl, rfl, by decide, rfl⟩
  obtain ⟨ho, hout, herr, hoff, hv⟩ := hform
  exact hostAccess_rd_of_visible ho hr (by simp [hout]) hoff ((visibleReg_of_other s off hout herr).trans hv)

/-- ERR_* show their contents while BUSY = 1 (R71 item 3) and once no DONE = 1 is unseen (R253). -/
theorem hostAccess_rd_errorRegs {s : State} (hr : s.inReset = false) (hw : s.statusBusy = true ∨ s.doneUnseen = false)
    {off : Nat} {v : Word} (h : (off, v) ∈ errorRegs s) :
    hostAccess (.rd off 4) s = .next { s with reads := s.reads ++ [v] } := by
  have hvis : visibleReg s off = readReg s off := hw.elim (visibleReg_of_busy s off) (visibleReg_of_seen s off)
  simp only [errorRegs, List.mem_cons, Prod.mk.injEq, List.not_mem_nil, or_false] at h
  rcases h with ⟨rfl, rfl⟩ | ⟨rfl, rfl⟩ <;>
    exact hostAccess_rd_of_visible rfl hr (by simp [isOutReg]) (by decide) hvis

/-- OUT_* show their contents while BUSY = 0 once no DONE = 1 is unseen (R253). -/
theorem hostAccess_rd_outputRegs {s : State} (hr : s.inReset = false) (hb : s.statusBusy = false)
    (hw : s.doneUnseen = false) {off : Nat} {v : Word} (h : (off, v) ∈ outputRegs s) :
    hostAccess (.rd off 4) s = .next { s with reads := s.reads ++ [v] } := by
  have hvis : visibleReg s off = readReg s off := visibleReg_of_seen s off hw
  simp only [outputRegs, List.mem_cons, Prod.mk.injEq, List.not_mem_nil, or_false] at h
  rcases h with ⟨rfl, rfl⟩ | ⟨rfl, rfl⟩ | ⟨rfl, rfl⟩ | ⟨rfl, rfl⟩ <;>
    exact hostAccess_rd_of_visible rfl hr (by simp [hb]) (by decide) hvis

/-- A read of STATUS returns it, and ends the hazard window when it shows DONE = 1 (R71 item 2; log 7). -/
theorem hostAccess_rd_status {s : State} (hr : s.inReset = false) :
    hostAccess (.rd 0x18 4) s = .next
      { s with reads := s.reads ++ [statusWord s], doneUnseen := s.doneUnseen && !s.statusDone } := by
  rw [hostAccess_rd rfl hr (by simp [isOutReg]), visibleReg_of_other s 0x18 rfl rfl]
  rfl

/-- Settles O34: the registers by group, STATUS by its word with BUSY = 0. -/
theorem registerReadsReturnTheirFields : Obligations.RegisterReadsReturnTheirFields := by
  intro s hr hb
  refine ⟨fun off v h => hostAccess_rd_commandRegs hr ?_, ?_, fun hw off v h => ?_⟩
  · simp only [commandRegs, List.mem_cons] at h ⊢
    tauto
  · rw [hostAccess_rd_status hr, statusWord_eq, hb]
    simp
  · obtain herr | hout := List.mem_append.1 (show (off, v) ∈ errorRegs s ++ outputRegs s from h)
    · exact hostAccess_rd_errorRegs hr (.inr hw) herr
    · exact hostAccess_rd_outputRegs hr hb hw hout

/-- While an operation runs, STATUS shows BUSY alone: the invariant excludes DONE, and with DONE = 0 the error code
and the error record are clear. -/
theorem State.StatusOk.of_busy {s : State} (h : s.StatusOk) (hb : s.statusBusy = true) :
    statusWord s = 1#32 ∧ s.statusDone = false ∧ s.errFound = 0 ∧ s.errExpected = 0 := by
  have hd : s.statusDone = false := by simpa [hb] using h.notBusyAndDone
  obtain ⟨herr, hfound, hexpected⟩ := h.recordClear (.inl hd)
  refine ⟨?_, hd, hfound, hexpected⟩
  rw [statusWord_eq, hb, hd, herr]
  rfl

/-- Settles O35: STATUS and ERR_* by what the invariant says of a running operation, the others by their contents. -/
theorem readsWhileBusy : Obligations.ReadsWhileBusy := by
  intro s hinv hr hb off v h
  obtain ⟨hstatus, hd, hfound, hexpected⟩ := hinv.status.of_busy hb
  obtain hs | h := List.mem_cons.1 h
  · obtain ⟨rfl, rfl⟩ := Prod.mk.inj hs
    rw [hostAccess_rd_status hr, hstatus, hd]
    simp
  · obtain herr | hcmd := List.mem_append.1
      (show (off, v) ∈ [(0x1C, 0#32), (0x20, 0#32)] ++ commandRegs s from h)
    · exact hostAccess_rd_errorRegs hr (.inl hb) (by rw [errorRegs, hfound, hexpected]; exact herr)
    · exact hostAccess_rd_commandRegs hr hcmd

/-! ## Reads of OBUF -/

/-- A legal read of OBUF while BUSY = 1 is a draw (R71 item 3; log 6). -/
theorem hostAccess_rdb_obuf_of_busy {s : State} {a n : Nat} (ho : bufAccessOk s.bufBytes a n = true)
    (hr : s.inReset = false) (hb : s.statusBusy = true) :
    hostAccess (.rdb .obuf a n) s = .next (s.replyAny n) := by
  simp [hostAccess, hostRdb, ho, hr, hb]

/-- Settles O36: both kinds of read are `State.replyAny`. -/
theorem outputReadsWhileBusyAreFree : Obligations.OutputReadsWhileBusyAreFree := by
  intro s hr hb
  refine ⟨fun off hoff => ?_, fun a n hn ha => ?_⟩
  · have hform : regAccessOk off 4 = true ∧ isOutReg off = true := by revert off; decide
    exact hostAccess_rd_of_drawn hform.1 hr (by rw [hb, hform.2]; rfl)
  · exact hostAccess_rdb_obuf_of_busy ((bufAccessOk_iff _ _ _).2 ⟨hn, ha⟩) hr hb

/-! ## The placed command word -/

theorem decodeTableWord_eq_some {nbits w : Nat} {i : Instr} :
    decodeTableWord nbits w = some i ↔ decodeWord (tableWord nbits w) = .legal i := by
  unfold decodeTableWord
  cases decodeWord (tableWord nbits w) <;> simp

/-- A latched instruction completes as its `exec` (spec/40_control.md R124). -/
theorem completionStep_of_legal {s : State} {i : Instr} (h : latchedCommand s = .legal i) :
    completionStep s = exec i s := by
  simp [completionStep, h]

/-- Settles O20: the START latched the placed word's fields, and with nothing scheduled the engine completes. -/
theorem placedWordRunsNext : Obligations.PlacedWordRunsNext := by
  intro s nbits w i hi
  have hlatched : latchedCommand (s.withFetchWord nbits w) = .legal i := decodeTableWord_eq_some.1 hi
  refine ⟨?_, rfl, rfl, rfl, rfl, rfl, rfl⟩
  rw [step_of_running rfl rfl rfl, completionStep_of_legal hlatched]

end Sys2Proof.Machine
end

section
/-! SUPPORT. What a read of a buffer is made of, byte by byte, the host's reads of OBUF while BUSY = 0, and when an
instruction stops. -/

namespace Sys2Proof.Machine

/-! ## The bytes of a read -/

/-- The bytes a load gives are those at its addresses. -/
theorem loadBytes_eq_some {f : Nat → Option Byte} {a n : Nat} {bs : List Byte} (h : loadBytes f a n = some bs) :
    bs.length = n ∧ ∀ j, j < n → f (a + j) = bs[j]? := by
  induction n generalizing a bs with
  | zero =>
    obtain rfl : [] = bs := Option.some.inj h
    exact ⟨rfl, fun j hj => absurd hj (Nat.not_lt_zero j)⟩
  | succ n ih =>
    simp only [loadBytes] at h
    split at h
    · rename_i b cs hb hcs
      obtain rfl : b :: cs = bs := Option.some.inj h
      obtain ⟨hlen, hbytes⟩ := ih hcs
      refine ⟨by simp [hlen], fun j hj => ?_⟩
      cases j with
      | zero => simpa using hb
      | succ j => simpa [Nat.add_assoc, Nat.add_comm 1] using hbytes j (by omega)
    · cases h

theorem leWord_cons (b : Byte) (bs : List Byte) : leWord (b :: bs) = (leWord bs <<< 8) ||| b.setWidth 32 := rfl

/-- The value of `n` little-endian bytes has no bit above them. -/
theorem leWord_toNat_lt (bs : List Byte) : (leWord bs).toNat < 2 ^ (8 * bs.length) := by
  induction bs with
  | nil => decide
  | cons b bs ih =>
    rw [leWord_cons, BitVec.toNat_or]
    apply Nat.or_lt_two_pow (n := 8 * bs.length + 8)
    · rw [BitVec.toNat_shiftLeft, Nat.shiftLeft_eq, Nat.pow_add]
      exact (Nat.mod_le _ _).trans_lt (Nat.mul_lt_mul_of_pos_right ih (by decide))
    · have hb : (b.setWidth 32).toNat < 2 ^ 8 := by simp; omega
      exact hb.trans_le (Nat.pow_le_pow_right (by decide) (by omega))

/-- Each of up to four little-endian bytes is its slice of the value (spec/20_memory.md R63). -/
theorem leWord_slice {bs : List Byte} {j : Nat} (hlen : bs.length ≤ 4) (hj : j < bs.length) :
    bs[j]? = some ((leWord bs).extractLsb' (8 * j) 8) := by
  induction bs generalizing j with
  | nil => simp at hj
  | cons b bs ih =>
    simp only [List.length_cons] at hlen hj
    rw [leWord_cons]
    cases j with
    | zero =>
      rw [List.getElem?_cons_zero]
      congr 1
      ext i hi
      simp [hi]
      omega
    | succ j =>
      rw [List.getElem?_cons_succ, ih (by omega) (by omega)]
      congr 1
      ext i hi
      have hword : 8 * (j + 1) + i < 32 := by omega
      have habove : 8 ≤ 8 * (j + 1) + i := by omega
      have hsub : 8 * (j + 1) + i - 8 = 8 * j + i := by omega
      simp [hword, habove, hsub, BitVec.getLsbD_eq_getElem (show 8 * j + i < 32 by omega)]

/-- What a read of up to four bytes returns is made of the bytes at its addresses alone. -/
theorem memRead_eq_some {f : Nat → Option Byte} {a n : Nat} {v : Word} (hn : n ≤ 4) (h : memRead f a n = some v) :
    v.toNat < 2 ^ (8 * n) ∧ ∀ j, j < n → f (a + j) = some (v.extractLsb' (8 * j) 8) := by
  obtain ⟨bs, hbs, rfl⟩ := Option.map_eq_some_iff.1 h
  obtain ⟨rfl, hbytes⟩ := loadBytes_eq_some hbs
  exact ⟨leWord_toNat_lt bs, fun j hj => (hbytes j hj).trans (leWord_slice hn hj)⟩

/-! ## The host's reads of OBUF while BUSY = 0 -/

/-- A legal read of OBUF whose bytes have a value returns it. -/
theorem hostAccess_rdb_obuf {s : State} {a n : Nat} {v : Word} (ho : bufAccessOk s.bufBytes a n = true)
    (hr : s.inReset = false) (hb : s.statusBusy = false) (hv : memRead (obufByte s) a n = some v) :
    hostAccess (.rdb .obuf a n) s = .next (s.reply v) := by
  simp [hostAccess, hostRdb, ho, hr, hb, hv]

/-- A legal read of OBUF that meets a byte without a value is the model fault (spec/10_state.md R38). -/
theorem hostAccess_rdb_obuf_of_none {s : State} {a n : Nat} (ho : bufAccessOk s.bufBytes a n = true)
    (hr : s.inReset = false) (hb : s.statusBusy = false) (hv : memRead (obufByte s) a n = none) :
    hostAccess (.rdb .obuf a n) s = .fault .unwrittenOutput := by
  simp [hostAccess, hostRdb, ho, hr, hb, hv]

/-- Written bytes of OBUF, once no DONE = 1 is unseen, read as what the memory holds. -/
theorem memRead_obufByte_of_written {s : State} {a n : Nat} (hw : s.doneUnseen = false)
    (h : ∀ j, j < n → (Memory.read s.obuf (a + j)).isSome) :
    memRead (obufByte s) a n = memRead (Memory.read s.obuf) a n := by
  rw [obufByte_of_seen s hw]
  exact memRead_congr fun j hj => seenObufByte_of_written s (a + j) (h j hj)

/-- A legal read of written bytes of OBUF, with BUSY = 0 and no DONE = 1 unseen, returns them. -/
theorem hostAccess_rdb_obuf_of_written {s : State} {a n : Nat} (ho : bufAccessOk s.bufBytes a n = true)
    (hr : s.inReset = false) (hb : s.statusBusy = false) (hw : s.doneUnseen = false)
    (h : ∀ j, j < n → (Memory.read s.obuf (a + j)).isSome) :
    ∃ v, memRead (Memory.read s.obuf) a n = some v ∧
      hostAccess (.rdb .obuf a n) s = .next { s with reads := s.reads ++ [v] } := by
  obtain ⟨v, hv⟩ := Option.isSome_iff_exists.1 ((memRead_isSome (Memory.read s.obuf) a n).2 h)
  exact ⟨v, hv, hostAccess_rdb_obuf ho hr hb ((memRead_obufByte_of_written hw h).trans hv)⟩

/-- A byte that is written or that an interrupted operation may have written has a value (R250; log 21). -/
theorem seenObufByte_of_valued {s : State} {x : Nat} (h : (Memory.read s.obuf x).isSome ∨ x < s.abandonedLen) :
    seenObufByte s x = some ((Memory.read s.obuf x).getD (Config.abandonedObuf s.epoch x)) := by
  obtain hwritten | habandoned := h
  · obtain ⟨b, hb⟩ := Option.isSome_iff_exists.1 hwritten
    rw [seenObufByte_of_written s x hwritten, hb]
    rfl
  · exact seenObufByte_of_abandoned s x habandoned

/-- Settles O40, by what the host sees of each byte it reads. -/
theorem obufReads : Obligations.ObufReads := by
  intro s a n hr hb hw hn ha
  have ho : bufAccessOk s.bufBytes a n = true := (bufAccessOk_iff _ _ _).2 ⟨hn, ha⟩
  have hn4 : n ≤ 4 := (by decide : ∀ n ∈ [1, 2, 4], n ≤ 4) n hn
  refine ⟨hostAccess_rdb_obuf_of_written ho hr hb hw, fun hvalued => ?_, fun ⟨j, hj, hnone, habandoned⟩ => ?_⟩
  · have hbytes : ∀ j, j < n → obufByte s (a + j) =
        some ((Memory.read s.obuf (a + j)).getD (Config.abandonedObuf s.epoch (a + j))) := fun j hj => by
      rw [obufByte_of_seen s hw, seenObufByte_of_valued (hvalued j hj)]
    have hsome := (memRead_isSome (obufByte s) a n).2 fun j hj => by rw [hbytes j hj]; rfl
    obtain ⟨v, hv⟩ := Option.isSome_iff_exists.1 hsome
    obtain ⟨hlt, hslices⟩ := memRead_eq_some hn4 hv
    refine ⟨v, hlt, fun j hj => ?_, hostAccess_rdb_obuf ho hr hb hv⟩
    exact Option.some.inj ((hslices j hj).symm.trans (hbytes j hj))
  · have hbyte : obufByte s (a + j) = none := by
      rw [obufByte_of_seen s hw, (seenObufByte_eq_none s (a + j)).2 ⟨hnone, habandoned⟩]
    refine hostAccess_rdb_obuf_of_none ho hr hb (Option.not_isSome_iff_eq_none.1 fun hsome => ?_)
    have := (memRead_isSome (obufByte s) a n).1 hsome j hj
    rw [hbyte] at this
    cases this

/-- Settles O55: the invariant says that every byte below OUT_LEN is written and inside OBUF. -/
theorem outputPayloadIsReadable : Obligations.OutputPayloadIsReadable := by
  intro s a n hinv hr hb hw hn ha
  obtain ⟨hinside, hwritten⟩ := hinv.result.payloadWritten
  obtain ⟨v, hv, hacc⟩ := hostAccess_rdb_obuf_of_written ((bufAccessOk_iff _ _ _).2 ⟨hn, ha.trans hinside⟩) hr hb hw
    fun j hj => hwritten (a + j) (by omega)
  exact ⟨v, hacc, hv⟩

/-! ## When an instruction stops -/

/-- The instruction's own precondition (spec/60_exceptions.md R229): 32 bits for UNPACK, two channels for the others. -/
theorem preconditionError_eq_none (lat : Latches) (i : Instr) :
    preconditionError lat i = none ↔ if i = .unpack then lat.bits = 32#16 else lat.ch = 2#16 := by
  cases i with
  | unpack => exact bitsError_eq_none lat
  | monoLeft => exact channelError_eq_none lat
  | monoRight => exact channelError_eq_none lat
  | monoSum => exact channelError_eq_none lat
  | monoDiff => exact channelError_eq_none lat
  | pack => exact channelError_eq_none lat

/-- An instruction's loop fails exactly on an unwritten byte of its payload of whole frames (spec/20_memory.md R66). -/
theorem InstrShape.frames_eq_none {i : Instr} {w : Nat} {out : Memory → Nat → Option (List Byte)}
    {body : Memory → Nat → Memory → Option Memory} {ch bits : Half} (shape : InstrShape i w out body ch bits)
    {s : State} (hwhole : s.lat.len.toNat % 4 = 0) :
    frames (body s.ibuf) (frameCount s) s.obuf = none ↔ ∃ a, a < s.lat.len.toNat ∧ Memory.read s.ibuf a = none := by
  have hlen : 4 * frameCount s = s.lat.len.toNat := Nat.mul_div_cancel' (Nat.dvd_of_mod_eq_zero hwhole)
  have hsome : (frames (body s.ibuf) (frameCount s) s.obuf).isSome ↔ Memory.WrittenBelow s.ibuf s.lat.len.toNat := by
    rw [frames_isSome (shape.blockBody s.ibuf), ← hlen, writtenBelow_iff_frames]
    simp only [shape.out_isSome]
  rw [← Option.not_isSome_iff_eq_none, hsome]
  simp [Memory.WrittenBelow]

/-- Settles O18, by the three ways the common operation sequence can end. -/
theorem unwrittenPayloadIsTheOnlyStop : Obligations.UnwrittenPayloadIsTheOnlyStop := by
  intro i s
  obtain ⟨out, body, ch, bits, shape⟩ := instr_shape i
  rw [shape.exec_eq, ← preconditionError_eq_none]
  obtain ⟨e, hcheck, hrun⟩ | ⟨hcheck, hframes, hrun⟩ | ⟨m, hcheck, hframes, hrun⟩ :=
    runOperation_cases i (body s.ibuf) ch bits _ s <;> rw [hrun]
  · have hfails : ¬ (preconditionError s.lat i = none ∧ s.lat.len.toNat ≤ s.bufBytes ∧ s.lat.len.toNat % 4 = 0) := by
      rw [← check_eq_none, hcheck]
      exact Option.some_ne_none e
    exact ⟨fun f => ⟨nofun, fun ⟨_, hpre, hrange, hwhole, _⟩ => absurd ⟨hpre, hrange, hwhole⟩ hfails⟩, nofun⟩
  · obtain ⟨hpre, hrange, hwhole⟩ := (check_eq_none _ _ _).1 hcheck
    have hunwritten := (shape.frames_eq_none hwhole).1 hframes
    refine ⟨fun f => ⟨fun h => ?_, fun ⟨hf, _⟩ => by rw [hf]⟩, nofun⟩
    cases h
    exact ⟨rfl, hpre, hrange, hwhole, hunwritten⟩
  · obtain ⟨-, -, hwhole⟩ := (check_eq_none _ _ _).1 hcheck
    have hwritten : ¬ ∃ a, a < s.lat.len.toNat ∧ Memory.read s.ibuf a = none := by
      rw [← shape.frames_eq_none hwhole, hframes]
      exact Option.some_ne_none m
    exact ⟨fun f => ⟨nofun, fun ⟨_, _, _, _, h⟩ => absurd h hwritten⟩, nofun⟩

end Sys2Proof.Machine
end

section
/-! SUPPORT. The invariant along a step: each update of the state keeps it, so each agent's turn does. The latches of a
running operation stand beside it, by the same inversion. -/

namespace Sys2Proof.Machine

/-! ## The latches while an operation runs -/

theorem Ended.lat_eq {s t : State} (h : Ended s t) : t.lat = s.lat := by
  cases h <;> rfl

theorem RegisterWritten.lat_of_busy {s t : State} (h : RegisterWritten s t) (hb : s.statusBusy = true) :
    t.lat = s.lat := by
  cases h with
  | started => rw [State.start_of_busy s hb]
  | stored => rfl

theorem HostEffect.lat_of_busy {h : HostOp} {s t : State} (ht : HostEffect s h t) (hb : s.statusBusy = true) :
    t.lat = s.lat := by
  cases ht with
  | wr off _ v => exact (writeReg_written s off v).lat_of_busy hb
  | _ => rfl

theorem releaseReset_statusBusy {s : State} (hr : s.inReset = true) : (releaseReset s).statusBusy = false := by
  rw [releaseReset_of_inReset s hr]
  rfl

/-- Settles O53: a completion keeps the latches, a host access writes them only while BUSY = 0, and a released reset
leaves BUSY = 0. -/
theorem runningCommandIsFixed : Obligations.RunningCommandIsFixed := by
  intro s t h hb hb'
  cases step_moved h with
  | host op rest turns t _ hacc => exact (hostAccess_effect hacc).lat_of_busy hb
  | engine turns t _ _ hend => exact (completionStep_ended hend).lat_eq
  | idle turns => rfl
  | asserted turns => rfl
  | released turns hr => exact nomatch hb'.symm.trans (releaseReset_statusBusy hr)

/-! ## The fields the invariant does not read -/

/-- `s` with what `u` holds in the fields the invariant does not read: the command registers, the latches, the reset
input and the model's own lists and counts. -/
def State.withOutside (s u : State) : State :=
  { s with
    cmdOp := u.cmdOp, cmdMode := u.cmdMode, inChannels := u.inChannels, inBits := u.inBits, inRate := u.inRate,
    inLen := u.inLen, lat := u.lat, inReset := u.inReset, hostOps := u.hostOps, schedule := u.schedule,
    reads := u.reads, starts := u.starts, draws := u.draws, epoch := u.epoch }

theorem State.Inv.withOutside {s : State} (h : s.Inv) (u : State) : (s.withOutside u).Inv where
  buffers := { h.buffers with }
  status := { h.status with }
  result := { h.result with }

/-- A state that differs from `s` in those fields alone has the invariant with `s`; for a record update the premise
is `rfl`. -/
theorem State.Inv.of_outside {s t : State} (h : s.Inv) (ht : t = s.withOutside t) : t.Inv := ht ▸ h.withOutside t

/-! ## The host's updates -/

theorem State.Inv.reply {s : State} (h : s.Inv) (v : Word) : (s.reply v).Inv := h.of_outside rfl

theorem State.Inv.replyAny {s : State} (h : s.Inv) (n : Nat) : (s.replyAny n).Inv := h.of_outside rfl

/-- The sight of DONE = 1 ends the window only when no operation runs. -/
theorem State.Inv.noteRead {s : State} (h : s.Inv) (off : Nat) : (s.noteRead off).Inv where
  buffers := { h.buffers with }
  status := { h.status with
    unseenWhileBusy := fun hb => by
      have hd : s.statusDone = false := (h.status.of_busy hb).2.1
      rw [State.noteRead_of_not_done off s hd]
      exact h.status.unseenWhileBusy hb }
  result := { h.result with }

/-- An accepted START clears the record and leaves the last result's payload as written as it was. -/
theorem State.Inv.acceptStart {s : State} (h : s.Inv) : s.acceptStart.Inv where
  buffers := { h.buffers with }
  status :=
    { notBusyAndDone := by simp
      unseenWhileBusy := fun _ => rfl
      errCode := by simp
      recordClear := fun _ => ⟨rfl, rfl, rfl⟩ }
  result :=
    { clearedByError := fun herr => absurd rfl herr
      describedBySuccess := fun hd => nomatch hd
      payloadWritten := h.result.payloadWritten }

theorem State.Inv.start {s : State} (h : s.Inv) : s.start.Inv := by
  unfold State.start
  split
  · exact h
  · exact h.acceptStart

theorem RegisterWritten.inv {s t : State} (ht : RegisterWritten s t) (hs : s.Inv) : t.Inv := by
  cases ht with
  | started => exact hs.start
  | stored => exact hs.of_outside rfl

theorem State.Inv.writeIbuf {s : State} (h : s.Inv) {a n : Nat} (v : Word) (ha : a + n ≤ s.bufBytes) :
    State.Inv { s with ibuf := memWrite s.ibuf a n v } where
  buffers := { h.buffers with
    ibufWf := Memory.wf_memWrite _ _ _ _ h.buffers.ibufWf
    ibufWithin := Memory.within_memWrite v ha h.buffers.ibufWithin }
  status := { h.status with }
  result := { h.result with }

/-- Every access of the host keeps the invariant. -/
theorem HostEffect.inv {h : HostOp} {s t : State} (ht : HostEffect s h t) (hs : s.Inv) : t.Inv := by
  cases ht with
  | rdHeld => exact hs.reply 0
  | rdDrawn => exact hs.replyAny 4
  | rd off => exact (hs.noteRead off).reply _
  | wrHeld => exact hs
  | wr off _ v => exact (writeReg_written s off v).inv hs
  | rdbHeld => exact hs.reply 0
  | rdbIbuf => exact hs.reply _
  | rdbObufDrawn _ n => exact hs.replyAny n
  | rdbObuf _ _ v => exact hs.reply v
  | wrbHeld => exact hs
  | wrbObuf => exact hs
  | wrbIbuf a n v ho => exact hs.writeIbuf v ((bufAccessOk_iff _ _ _).1 ho).2
  | waitDone => exact (hs.noteRead 0x18).reply _
  | waitPending => exact hs.of_outside rfl

/-! ## The end of an operation -/

/-- A failed operation records one of the codes 1 to 6 and clears the result descriptor (spec/60_exceptions.md R222). -/
theorem State.Inv.raiseError {s : State} (h : s.Inv) (e : OpError) : (s.raiseError e).Inv where
  buffers := { h.buffers with }
  status :=
    { notBusyAndDone := fun ⟨hb, _⟩ => nomatch hb
      unseenWhileBusy := fun hb => nomatch hb
      errCode := (errorCode_bounds e.kind).2
      recordClear := fun hclear =>
        hclear.elim (fun hd => nomatch hd) fun herr => absurd herr (errorCode_bounds e.kind).1 }
  result :=
    { clearedByError := fun _ => ⟨rfl, rfl, rfl, rfl⟩
      describedBySuccess := fun _ herr => absurd herr (errorCode_bounds e.kind).1
      payloadWritten := ⟨Nat.zero_le _, fun a ha => absurd ha (Nat.not_lt_zero a)⟩ }

/-- The three forms of a result: MONO's, PACK's and UNPACK's (spec/10_state.md R32, R33). -/
def ResultForm (ch bits : Half) : Prop := ch = 1 ∧ bits = 16 ∨ ch = 1 ∧ bits = 32 ∨ ch = 2 ∧ bits = 16

/-- A successful operation keeps the invariant when it leaves OBUF canonical and inside BUF_BYTES and has written its
whole payload. -/
theorem State.Inv.complete {s : State} (h : s.Inv) {m : Memory} {ch bits : Half} {len : Word}
    (hform : ResultForm ch bits) (hwf : Memory.wf m = true) (hwithin : Memory.Within m s.bufBytes)
    (hlen : len.toNat ≤ s.bufBytes) (hwritten : Memory.WrittenBelow m len.toNat) :
    (State.complete ch bits len { s with obuf := m }).Inv where
  buffers := { h.buffers with obufWf := hwf, obufWithin := hwithin }
  status :=
    { notBusyAndDone := fun ⟨hb, _⟩ => nomatch hb
      unseenWhileBusy := fun hb => nomatch hb
      errCode := Nat.zero_le _
      recordClear := fun _ => ⟨rfl, rfl, rfl⟩ }
  result :=
    { clearedByError := fun herr => absurd rfl herr
      describedBySuccess := fun _ _ => hform
      payloadWritten := ⟨hlen, hwritten⟩ }

/-- Blocks of `w` bytes for frames 0 to n-1 leave no byte below `w * n` unwritten. -/
theorem FramesDone.writtenBelow {w n : Nat} {out : Nat → Option (List Byte)} {m m' : Memory}
    (h : FramesDone w out n m m') (hlen : ∀ k bs, out k = some bs → bs.length = w) :
    Memory.WrittenBelow m' (w * n) := by
  intro a ha
  have hw : 0 < w := Nat.pos_of_mul_pos_right (Nat.zero_lt_of_lt ha)
  obtain ⟨bs, hbs, hread⟩ := h.block (a / w) (Nat.div_lt_of_lt_mul ha)
  have hmod : a % w < bs.length := (Nat.mod_lt a hw).trans_eq (hlen _ _ hbs).symm
  rw [← Nat.div_add_mod a w, hread (a % w) (Nat.mod_lt a hw), List.getElem?_eq_getElem hmod]
  rfl

/-- Every instruction writes at most as many bytes a frame as it reads, and describes its result in one of the three
forms. -/
theorem instr_shape_resultForm (i : Instr) :
    ∃ w out body ch bits, InstrShape i w out body ch bits ∧ w ≤ 4 ∧ ResultForm ch bits := by
  cases i with
  | monoLeft => exact ⟨_, _, _, _, _, monoLeft_shape, by decide, .inl ⟨rfl, rfl⟩⟩
  | monoRight => exact ⟨_, _, _, _, _, monoRight_shape, by decide, .inl ⟨rfl, rfl⟩⟩
  | monoSum => exact ⟨_, _, _, _, _, monoSum_shape, by decide, .inl ⟨rfl, rfl⟩⟩
  | monoDiff => exact ⟨_, _, _, _, _, monoDiff_shape, by decide, .inl ⟨rfl, rfl⟩⟩
  | pack => exact ⟨_, _, _, _, _, pack_shape, by decide, .inr (.inl ⟨rfl, rfl⟩)⟩
  | unpack => exact ⟨_, _, _, _, _, unpack_shape, by decide, .inr (.inr ⟨rfl, rfl⟩)⟩

/-- Every instruction's completion keeps the invariant: it fails, or it writes its payload whole and inside OBUF. -/
theorem exec_inv {i : Instr} {s t : State} (hs : s.Inv) (h : exec i s = .next t) : t.Inv := by
  obtain ⟨w, out, body, ch, bits, shape, hw, hform⟩ := instr_shape_resultForm i
  rw [shape.exec_eq] at h
  obtain ⟨e, -, hrun⟩ | ⟨-, -, hrun⟩ | ⟨m, hcheck, hframes, hrun⟩ :=
    runOperation_cases i (body s.ibuf) ch bits w s <;> rw [hrun] at h <;> cases h
  · exact hs.raiseError e
  · have hdone := frames_done (shape.blockBody s.ibuf) hframes
    obtain ⟨-, hrange, hwhole⟩ := (check_eq_none _ _ _).1 hcheck
    have hpayload : w * frameCount s ≤ s.lat.len.toNat :=
      (Nat.mul_le_mul_right _ hw).trans (Nat.mul_div_le _ 4)
    have hlen : (BitVec.ofNat 32 (w * frameCount s)).toNat = w * frameCount s := by
      rw [BitVec.toNat_ofNat, Nat.mod_eq_of_lt (hpayload.trans_lt s.lat.len.isLt)]
    apply hs.complete hform (hdone.wf hs.buffers.obufWf)
    · exact hdone.within _ (hpayload.trans hrange) hs.buffers.obufWithin
    · exact hlen.trans_le (hpayload.trans hrange)
    · rw [hlen]; exact hdone.writtenBelow (shape.blockBody s.ibuf).2

/-- The completion step keeps the invariant, for the illegal classes too (R224, R225). -/
theorem completionStep_inv {s t : State} (hs : s.Inv) (h : completionStep s = .next t) : t.Inv := by
  unfold completionStep at h
  split at h
  · exact exec_inv hs h
  · cases h; exact hs.raiseError _
  · cases h; exact hs.raiseError _

/-! ## Reset -/

/-- The block as reset leaves it (spec/70_reset_and_hazards.md R251), for any legal buffer size and any OBUF bytes of
an abandoned operation inside it. -/
theorem inv_of_reset {size abandoned : Nat} (hsize : Config.LegalBufBytes size) (ha : abandoned ≤ size) :
    State.Inv { State.reset with bufBytes := size, abandonedLen := abandoned } where
  buffers :=
    { legalSize := hsize
      ibufWf := rfl
      obufWf := rfl
      ibufWithin := fun _ hc => nomatch hc
      obufWithin := fun _ hc => nomatch hc
      abandonedWithin := ha }
  status :=
    { notBusyAndDone := fun ⟨hb, _⟩ => nomatch hb
      unseenWhileBusy := fun hb => nomatch hb
      errCode := Nat.zero_le _
      recordClear := fun _ => ⟨rfl, rfl, rfl⟩ }
  result :=
    { clearedByError := fun herr => absurd rfl herr
      describedBySuccess := fun hd => nomatch hd
      payloadWritten := ⟨Nat.zero_le _, fun a ha => absurd ha (Nat.not_lt_zero a)⟩ }

/-- Whatever the implementation chose, BUF_BYTES is a legal size (92 D10). -/
theorem Config.bufBytes_legal : Config.LegalBufBytes Config.bufBytes := by
  unfold Config.bufBytes
  omega

/-- Settles O50. -/
theorem resetHasInv : Obligations.ResetHasInv := inv_of_reset Config.bufBytes_legal (Nat.zero_le _)

/-- The release of reset: what is abandoned of an interrupted operation lies inside OBUF (R250; log 21). -/
theorem State.Inv.releaseReset {s : State} (h : s.Inv) : (releaseReset s).Inv := by
  cases hr : s.inReset with
  | false => rw [releaseReset_of_not_inReset s hr]; exact h
  | true =>
    rw [releaseReset_of_inReset s hr]
    exact (inv_of_reset h.buffers.legalSize (inProgressLen_le s)).of_outside rfl

/-! ## The step -/

/-- Settles O51, by what each agent's turn can have done. -/
theorem everyStepKeepsInv : Obligations.EveryStepKeepsInv := by
  intro s t hs h
  cases step_moved h with
  | host op rest turns t _ hacc => exact (hostAccess_effect hacc).inv (hs.of_outside rfl)
  | engine turns t _ _ hend => exact completionStep_inv (hs.of_outside rfl) hend
  | idle turns => exact hs.of_outside rfl
  | asserted turns => exact hs.of_outside rfl
  | released turns _ => exact State.Inv.releaseReset (hs.of_outside rfl)

end Sys2Proof.Machine
end

section
/-! SUPPORT. The host's turn and the form of its accesses: which access a step makes, which are refused, who owns the
buffers, and what no access but START changes. -/

namespace Sys2Proof.Machine

/-! ## The host's turn -/

/-- The host's turn is the access at the head of its list (log 1). -/
theorem hostTurn_of_cons {s : State} {h : HostOp} {rest : List HostOp} (hh : s.hostOps = h :: rest) :
    hostTurn s = hostAccess h { s with hostOps := rest } := by
  simp only [hostTurn, hh]

/-- A running operation completes when nothing is scheduled (log 1). -/
theorem step_of_ready {s : State} (hs : s.schedule = []) (hready : engineReady s = true) : step s = engineTurn s := by
  simp [step, hs, hready]

/-- An idle engine with nothing scheduled leaves the turn to the host (log 1). -/
theorem step_of_idle {s : State} (hs : s.schedule = []) (hidle : engineReady s = false) : step s = hostTurn s := by
  simp [step, hs, hidle]

/-- A scheduled turn is taken and used up. -/
theorem step_of_scheduled {s : State} {turn : Turn} {rest : List Turn} (hs : s.schedule = turn :: rest) :
    step s = takeTurn turn { s with schedule := rest } := by
  simp only [step, hs]

/-- Settles O30, on both of the host's turns. -/
theorem stepMakesTheHostsAccess : Obligations.StepMakesTheHostsAccess := by
  intro s h rest hh
  refine ⟨fun hs hidle => ?_, fun turns hs => ?_⟩
  · have hready : engineReady s = false := by
      obtain hb | hr := hidle
      · simp [engineReady, hb]
      · simp [engineReady, hr]
    rw [step_of_idle hs hready, hostTurn_of_cons hh]
  · rw [step_of_scheduled hs]
    exact hostTurn_of_cons hh

/-! ## Accesses of an illegal form -/

theorem regAccessOk_iff (off width : Nat) :
    regAccessOk off width = true ↔ width = 4 ∧ off % 4 = 0 ∧ off ≤ 0x3C := by
  simp [regAccessOk]

/-- The form of a register access is looked at first (spec/20_memory.md R61; log 8). -/
theorem hostAccess_reg_of_bad {off width : Nat} (h : regAccessOk off width = false) (v : Word) (s : State) :
    hostAccess (.rd off width) s = .refused .busError ∧ hostAccess (.wr off width v) s = .refused .busError := by
  simp [hostAccess, hostRd, hostWr, h]

/-- A read of a legal form is answered: held at 0 in reset, drawn, or with what the host sees of the register. -/
theorem hostAccess_rd_answered {off width : Nat} (h : regAccessOk off width = true) (s : State) :
    ∃ t, hostAccess (.rd off width) s = .next t := by
  simp only [hostAccess, hostRd, h]
  cases s.inReset with
  | true => exact ⟨_, rfl⟩
  | false =>
    cases s.statusBusy && isOutReg off with
    | true => exact ⟨_, rfl⟩
    | false => exact ⟨_, rfl⟩

/-- A write of a legal form is answered: without effect in reset, and with its effect otherwise. -/
theorem hostAccess_wr_answered {off width : Nat} (h : regAccessOk off width = true) (v : Word) (s : State) :
    ∃ t, hostAccess (.wr off width v) s = .next t := by
  simp only [hostAccess, hostWr, h]
  cases s.inReset with
  | true => exact ⟨_, rfl⟩
  | false => exact ⟨_, rfl⟩

/-- Settles O37, by the form alone. -/
theorem badRegisterAccessIsRefused : Obligations.BadRegisterAccessIsRefused := by
  intro s off width v
  rw [← regAccessOk_iff]
  exact ⟨fun hbad => hostAccess_reg_of_bad (by simpa using hbad) v s,
    fun hok => ⟨hostAccess_rd_answered hok s, hostAccess_wr_answered hok v s⟩⟩

/-- The form of a buffer access is looked at first (R62; log 8). -/
theorem hostAccess_buf_of_bad {s : State} {a n : Nat} (h : bufAccessOk s.bufBytes a n = false) (b : Buffer) (v : Word) :
    hostAccess (.rdb b a n) s = .refused .busError ∧ hostAccess (.wrb b a n v) s = .refused .busError := by
  simp [hostAccess, hostRdb, hostWrb, h]

/-- Settles O42, by the form alone. -/
theorem badBufferAccessIsRefused : Obligations.BadBufferAccessIsRefused := by
  intro s b a n v hbad
  rw [← bufAccessOk_iff] at hbad
  exact hostAccess_buf_of_bad (by simpa using hbad) b v

/-! ## Who owns the buffers -/

/-- A legal write to OBUF is ignored (R62). -/
theorem hostAccess_wrb_obuf {s : State} {a n : Nat} (v : Word) (ho : bufAccessOk s.bufBytes a n = true) :
    hostAccess (.wrb .obuf a n v) s = .next s := by
  simp [hostAccess, hostWrb, ho]

/-- A legal write to IBUF while the engine owns it is the model fault (R72, spec/70_reset_and_hazards.md R254). -/
theorem hostAccess_wrb_ibuf_of_owned {s : State} {a n : Nat} (v : Word) (ho : bufAccessOk s.bufBytes a n = true)
    (hr : s.inReset = false) (hw : engineOwns s = true) :
    hostAccess (.wrb .ibuf a n v) s = .fault .bufferHazard := by
  simp [hostAccess, hostWrb, ho, hr, hw]

/-- Settles O41. -/
theorem bufferOwnership : Obligations.BufferOwnership := by
  intro s a n v hr hn ha
  have ho : bufAccessOk s.bufBytes a n = true := (bufAccessOk_iff _ _ _).2 ⟨hn, ha⟩
  exact ⟨hostAccess_wrb_obuf v ho, fun hw => hostAccess_wrb_ibuf_of_owned v ho hr (by simpa [engineOwns] using hw)⟩

/-! ## The engine's side -/

/-- `s` with what `u` holds on the host's side: the command registers, IBUF, and the model's record of what the host
does and knows. The engine's side stays `s`'s. -/
def State.withHostSide (s u : State) : State :=
  { s with
    cmdOp := u.cmdOp, cmdMode := u.cmdMode, inChannels := u.inChannels, inBits := u.inBits, inRate := u.inRate,
    inLen := u.inLen, ibuf := u.ibuf, doneUnseen := u.doneUnseen, hostOps := u.hostOps, reads := u.reads,
    draws := u.draws }

/-- A register write that is no accepted START touches CMD and IN_* alone (spec/40_control.md R121). -/
theorem writeReg_hostSide {s : State} {off : Nat} {v : Word}
    (hstart : off = 0x00 → v.getLsbD 0 = true → s.statusBusy = true) :
    writeReg s off v = s.withHostSide (writeReg s off v) := by
  by_cases hoff : off = 0x00
  · subst hoff
    rw [writeReg_ctrl]
    split
    · rw [State.start_of_busy s (hstart rfl ‹_›)]; rfl
    · rfl
  · unfold writeReg
    split_ifs <;> rfl

/-- Every access but an accepted START moves the host's side alone. -/
theorem HostEffect.hostSide {h : HostOp} {s t : State} (ht : HostEffect s h t)
    (hstart : ∀ v, h = .wr 0x00 4 v → v.getLsbD 0 = true → s.statusBusy = true) : t = s.withHostSide t := by
  cases ht with
  | wr off width v ho =>
    obtain ⟨rfl, -, -⟩ := (regAccessOk_iff off width).1 ho
    exact writeReg_hostSide fun hoff => hstart v (by rw [hoff])
  | _ => rfl

/-- Settles O43: the registers it names are all on the engine's side. -/
theorem onlyStartTouchesTheEnginesState : Obligations.OnlyStartTouchesTheEnginesState := by
  intro s t h ht hstart
  rw [(hostAccess_effect ht).hostSide hstart]
  exact ⟨rfl, rfl, rfl, rfl, rfl, rfl, rfl, rfl, rfl, rfl, rfl⟩

end Sys2Proof.Machine
end

section
/-! SUPPORT. The host's reads whose bytes all have a value, and the reads made again while BUSY = 0. -/

namespace Sys2Proof.Machine

/-! ## Reads of bytes that all have a value -/

/-- A read of up to four bytes that all have a value returns them. -/
theorem memRead_of_valued {f : Nat → Option Byte} {g : Nat → Byte} {a n : Nat} (hn : n ≤ 4)
    (h : ∀ j, j < n → f (a + j) = some (g j)) :
    ∃ v, memRead f a n = some v ∧ v.toNat < 2 ^ (8 * n) ∧ ∀ j, j < n → v.extractLsb' (8 * j) 8 = g j := by
  have hsome := (memRead_isSome f a n).2 fun j hj => by rw [h j hj]; rfl
  obtain ⟨v, hv⟩ := Option.isSome_iff_exists.1 hsome
  obtain ⟨hlt, hslices⟩ := memRead_eq_some hn hv
  exact ⟨v, hv, hlt, fun j hj => Option.some.inj ((hslices j hj).symm.trans (h j hj))⟩

/-- Every byte of IBUF has a value for the host (log 5). -/
theorem ibufByte_eq (s : State) (x : Nat) :
    ibufByte s x = some ((Memory.read s.ibuf x).getD (Config.unwrittenIbuf s.epoch x)) := rfl

theorem width_le_four {n : Nat} (h : n ∈ [1, 2, 4]) : n ≤ 4 := (by decide : ∀ n ∈ [1, 2, 4], n ≤ 4) n h

/-- Settles O58: every byte the host sees of IBUF has a value, and the list of what has been read is none of it. -/
theorem ibufReads : Obligations.IbufReads := by
  intro s a n hr hn ha
  have ho : bufAccessOk s.bufBytes a n = true := (bufAccessOk_iff _ _ _).2 ⟨hn, ha⟩
  obtain ⟨v, hv, hlt, hslices⟩ := memRead_of_valued (f := ibufByte s) (a := a) (width_le_four hn)
    fun j _ => ibufByte_eq s (a + j)
  refine ⟨v, hlt, hslices, hostAccess_rdb_ibuf ho hr hv, ?_⟩
  have hagain := hostAccess_rdb_ibuf (s := { s with reads := s.reads ++ [v] }) ho hr hv
  rw [hagain, State.reply, List.append_assoc, List.singleton_append]

/-- Settles O56: OUT_*, ERR_* and every OBUF byte of an unseen result are the free values of log 20. -/
theorem resultReadsBeforeDoneIsSeenAreFree : Obligations.ResultReadsBeforeDoneIsSeenAreFree := by
  intro s hr hb hw
  have hunseen : resultUnseen s = true := by simp [resultUnseen, hb, hw]
  refine ⟨fun off hoff => ?_, fun a n hn ha => ?_⟩
  · have hform : regAccessOk off 4 = true ∧ (isOutReg off || isErrReg off) = true ∧ off ≠ 0x18 := by
      revert off; decide
    obtain ⟨ho, hresult, hstatus⟩ := hform
    exact hostAccess_rd_of_visible ho hr (by simp [hb]) hstatus (visibleReg_of_unseen s off hunseen hresult)
  · have ho : bufAccessOk s.bufBytes a n = true := (bufAccessOk_iff _ _ _).2 ⟨hn, ha⟩
    obtain ⟨v, hv, hlt, hslices⟩ := memRead_of_valued (f := obufByte s) (a := a) (width_le_four hn) fun j _ =>
      congrFun (obufByte_of_unseen s hunseen) (a + j)
    exact ⟨v, hlt, hslices, hostAccess_rdb_obuf ho hr hb hv⟩

/-! ## Reads made again -/

/-- A legal register read while reset is asserted returns 0 (spec/70_reset_and_hazards.md R250). -/
theorem hostAccess_rd_of_held {s : State} {off width : Nat} (ho : regAccessOk off width = true)
    (hr : s.inReset = true) : hostAccess (.rd off width) s = .next (s.reply 0) := by
  simp [hostAccess, hostRd, ho, hr]

/-- A legal buffer read while reset is asserted returns 0 (R250). -/
theorem hostAccess_rdb_of_held {s : State} {b : Buffer} {a n : Nat} (ho : bufAccessOk s.bufBytes a n = true)
    (hr : s.inReset = true) : hostAccess (.rdb b a n) s = .next (s.reply 0) := by
  simp [hostAccess, hostRdb, ho, hr]

/-- A second sight of a register makes nothing more known. -/
theorem State.noteRead_noteRead (off : Nat) (s : State) : (s.noteRead off).noteRead off = s.noteRead off := by
  simp [State.noteRead]

/-- STATUS, the one register whose sight changes what the host knows, looks the same before and after it. -/
theorem visibleReg_noteRead (off : Nat) (s : State) : visibleReg (s.noteRead off) off = visibleReg s off := by
  by_cases hoff : off = 0x18
  · subst hoff
    rw [visibleReg_of_other _ _ rfl rfl, visibleReg_of_other _ _ rfl rfl]
    rfl
  · rw [State.noteRead_of_ne off s hoff]

/-- A read while BUSY = 0 moves at most the list of what has been read and the mark that DONE = 1 is unseen. -/
theorem HostEffect.of_read {h : HostOp} {s t : State} (ht : HostEffect s h t) (hread : h.isRead = true)
    (hb : s.statusBusy = false) : t = { s with reads := t.reads, doneUnseen := t.doneUnseen } := by
  cases ht with
  | rdDrawn _ _ _ _ hdrawn => simp [hb] at hdrawn
  | rdbObufDrawn _ _ _ _ hbusy => simp [hb] at hbusy
  | rdHeld | rd | rdbHeld | rdbIbuf | rdbObuf => rfl
  | wrHeld | wr | wrbHeld | wrbObuf | wrbIbuf | waitDone | waitPending => cases hread

/-- So do any reads made one after the other. -/
theorem ReadsLead.of_idle {hs : List HostOp} {s u : State} (hlead : ReadsLead s hs u) (hb : s.statusBusy = false) :
    u = { s with reads := u.reads, doneUnseen := u.doneUnseen } := by
  induction hs generalizing s with
  | nil => cases hlead; rfl
  | cons h hs ih =>
    obtain ⟨hread, t, hacc, hlead⟩ := hlead
    have ht := (hostAccess_effect hacc).of_read hread hb
    have hu := ih hlead (by rw [ht]; exact hb)
    rw [ht] at hu
    exact hu

/-- A read answered while BUSY = 0 gives its value again, whatever has been read since. -/
theorem HostEffect.read_again {h : HostOp} {s t : State} (ht : HostEffect s h t) (hread : h.isRead = true)
    (hb : s.statusBusy = false) :
    ∃ v, t.reads = s.reads ++ [v] ∧
      ∀ rs, hostAccess h { t with reads := rs } = .next { t with reads := rs ++ [v] } := by
  cases ht with
  | rdHeld off width ho hr => exact ⟨0, rfl, fun rs => hostAccess_rd_of_held ho hr⟩
  | rd off width ho hr hu =>
    obtain ⟨rfl, -, -⟩ := (regAccessOk_iff off width).1 ho
    refine ⟨visibleReg s off, rfl, fun rs => ?_⟩
    have hagain := hostAccess_rd (s := { s.noteRead off with reads := rs }) ho hr hu
    calc hostAccess (.rd off 4) { s.noteRead off with reads := rs }
        = .next { (s.noteRead off).noteRead off with reads := rs ++ [visibleReg (s.noteRead off) off] } := hagain
      _ = .next { s.noteRead off with reads := rs ++ [visibleReg s off] } := by
          rw [State.noteRead_noteRead, visibleReg_noteRead]
  | rdbHeld b a n ho hr => exact ⟨0, rfl, fun rs => hostAccess_rdb_of_held ho hr⟩
  | rdbIbuf a n ho hr =>
    obtain ⟨v, hv⟩ := Option.isSome_iff_exists.1 ((memRead_isSome (ibufByte s) a n).2 fun _ _ => rfl)
    exact ⟨v, by rw [State.reply_reads, hv, Option.getD_some], fun rs => hostAccess_rdb_ibuf ho hr hv⟩
  | rdbObuf a n v ho hr _ hv => exact ⟨v, rfl, fun rs => hostAccess_rdb_obuf ho hr hb hv⟩
  | rdDrawn _ _ _ _ hdrawn => simp [hb] at hdrawn
  | rdbObufDrawn _ _ _ _ hbusy => simp [hb] at hbusy
  | wrHeld | wr | wrbHeld | wrbObuf | wrbIbuf | waitDone | waitPending => cases hread

/-- Settles O60: the reads between leave all that the value depends on, the mark of an unseen DONE = 1 by premise. -/
theorem readsAreIdempotentWhileIdle : Obligations.ReadsAreIdempotentWhileIdle := by
  intro s t u h hs hb hread hacc hlead hseen
  have heffect := hostAccess_effect hacc
  have hidle : t.statusBusy = false := by rw [heffect.of_read hread hb]; exact hb
  obtain ⟨v, hv, hagain⟩ := heffect.read_again hread hb
  have hu : u = { t with reads := u.reads } := by
    have := hlead.of_idle hidle
    rwa [hseen] at this
  refine ⟨v, hv, ?_⟩
  rw [hu]
  exact hagain u.reads

end Sys2Proof.Machine
end

section
/-! SUPPORT. The hazard window and the free values of IBUF along a step, by whose turn it takes. -/

namespace Sys2Proof.Machine

/-! ## Whose turn a step takes -/

/-- A step takes the scheduled turn, or the host's or the engine's with nothing scheduled (log 1). -/
theorem step_takesTurn {s t : State} (h : step s = .next t) :
    ∃ turn rest, takeTurn turn { s with schedule := rest } = .next t ∧
      (s.schedule = turn :: rest ∨ s.schedule = [] ∧ turn ≠ .releaseReset) := by
  cases hs : s.schedule with
  | cons turn rest => exact ⟨turn, rest, step_of_scheduled hs ▸ h, .inl rfl⟩
  | nil =>
    have hsame : { s with schedule := [] } = s := by rw [← hs]
    cases hready : engineReady s with
    | true =>
      refine ⟨.engine, [], ?_, .inr ⟨rfl, nofun⟩⟩
      rw [hsame]
      exact (step_of_ready hs hready).symm.trans h
    | false =>
      refine ⟨.host, [], ?_, .inr ⟨rfl, nofun⟩⟩
      rw [hsame]
      exact (step_of_idle hs hready).symm.trans h

theorem hostTurn_cases {s t : State} (h : hostTurn s = .next t) :
    t = s ∨ ∃ op rest, s.hostOps = op :: rest ∧ hostAccess op { s with hostOps := rest } = .next t := by
  cases hh : s.hostOps with
  | nil =>
    simp only [hostTurn, hh] at h
    cases h
    exact .inl rfl
  | cons op rest => exact .inr ⟨op, rest, rfl, hostTurn_of_cons hh ▸ h⟩

theorem engineTurn_cases {s t : State} (h : engineTurn s = .next t) : t = s ∨ Ended s t := by
  unfold engineTurn at h
  split at h
  · exact .inr (completionStep_ended h)
  · cases h; exact .inl rfl

/-! ## The two facts for each turn -/

/-- An operation's end is no sight of it (spec/70_reset_and_hazards.md R253). -/
theorem Ended.doneUnseen_eq {s t : State} (h : Ended s t) : t.doneUnseen = s.doneUnseen := by
  cases h <;> simp

theorem Ended.epoch_eq {s t : State} (h : Ended s t) : t.epoch = s.epoch := by
  cases h <;> simp

/-- Only the release of an asserted reset is counted (log 5). -/
theorem releaseReset_epoch (s : State) : (releaseReset s).epoch = if s.inReset then s.epoch + 1 else s.epoch := by
  cases hr : s.inReset with
  | true => rw [releaseReset_of_inReset s hr]; rfl
  | false => rw [releaseReset_of_not_inReset s hr]; rfl

/-- No other turn counts a release. -/
theorem takeTurn_epoch {turn : Turn} {s t : State} (h : takeTurn turn s = .next t) (hturn : turn ≠ .releaseReset) :
    t.epoch = s.epoch := by
  cases turn with
  | host =>
    obtain rfl | ⟨op, rest, -, hacc⟩ := hostTurn_cases h
    · rfl
    · exact (hostAccess_window hacc).1
  | engine =>
    obtain rfl | hend := engineTurn_cases h
    · rfl
    · exact hend.epoch_eq
  | assertReset => cases h; rfl
  | releaseReset => exact absurd rfl hturn

/-- The turns that can close the hazard window (R253, R254; log 7). -/
theorem takeTurn_closes_window {turn : Turn} {s t : State} (h : takeTurn turn s = .next t)
    (hopen : s.doneUnseen = true) (hclosed : t.doneUnseen = false) :
    (s.statusDone = true ∧ s.inReset = false ∧ ∃ rest, s.hostOps = .rd 0x18 4 :: rest ∨ s.hostOps = .wait :: rest) ∨
    (s.inReset = true ∧ turn = .releaseReset) := by
  cases turn with
  | host =>
    obtain rfl | ⟨op, rest, hops, hacc⟩ := hostTurn_cases h
    · exact nomatch hopen.symm.trans hclosed
    · obtain ⟨-, -, hwindow⟩ := hostAccess_window hacc
      obtain ⟨hdone, hr, hop⟩ := hwindow hopen hclosed
      refine .inl ⟨hdone, hr, rest, ?_⟩
      obtain rfl | rfl := hop
      · exact .inl hops
      · exact .inr hops
  | engine =>
    obtain rfl | hend := engineTurn_cases h
    · exact nomatch hopen.symm.trans hclosed
    · exact nomatch hopen.symm.trans (hend.doneUnseen_eq.symm.trans hclosed)
  | assertReset => cases h; exact nomatch hopen.symm.trans hclosed
  | releaseReset =>
    cases h
    cases hr : s.inReset with
    | true => exact .inr ⟨rfl, rfl⟩
    | false =>
      rw [releaseReset_of_not_inReset s hr] at hclosed
      exact nomatch hopen.symm.trans hclosed

/-! ## The statements -/

/-- Settles O57, by whose turn the step takes. -/
theorem hazardWindowClosesOnlyWhenDoneIsSeen : Obligations.HazardWindowClosesOnlyWhenDoneIsSeen := by
  intro s t h hopen hclosed
  obtain ⟨turn, rest, hturn, hscheduled⟩ := step_takesTurn h
  obtain hseen | ⟨hr, rfl⟩ := takeTurn_closes_window hturn hopen hclosed
  · exact .inl hseen
  · obtain hs | ⟨-, hne⟩ := hscheduled
    · exact .inr ⟨hr, rest, hs⟩
    · exact absurd rfl hne

/-- Settles O59, by whose turn the step takes. -/
theorem unwrittenIbufIsRedrawnOnlyByReset : Obligations.UnwrittenIbufIsRedrawnOnlyByReset := by
  intro s t h
  obtain ⟨turn, rest, hturn, hscheduled⟩ := step_takesTurn h
  by_cases hrel : turn = .releaseReset
  · subst hrel
    obtain hs | ⟨-, hne⟩ := hscheduled
    · cases hturn
      rw [releaseReset_epoch]
      simp [hs]
    · exact absurd rfl hne
  · have hhead : s.schedule.head? ≠ some .releaseReset := by
      obtain hs | ⟨hs, -⟩ := hscheduled <;> simp [hs, hrel]
    rw [takeTurn_epoch hturn hrel, if_neg fun hboth => hhead hboth.2]

end Sys2Proof.Machine
end

section
/-! SUPPORT. What an instruction leaves unchanged. -/

namespace Sys2Proof.Machine

/-- The loop leaves every byte outside its blocks as it was. -/
theorem FramesDone.read_of_outside {w n : Nat} {out : Nat → Option (List Byte)} {m m' : Memory}
    (h : FramesDone w out n m m') (hw : 0 < w) {a : Nat} (ha : ∀ k, k < n → a < w * k ∨ w * k + w ≤ a) :
    Memory.read m' a = Memory.read m a := by
  apply h.beyond
  by_contra hbelow
  have hstart : w * (a / w) ≤ a := Nat.mul_div_le a w
  have hend : a < w * (a / w) + w := Nat.lt_mul_div_succ a hw
  have := ha (a / w) (Nat.div_lt_of_lt_mul (Nat.lt_of_not_le hbelow))
  omega

/-- A failed instruction leaves OBUF (spec/60_exceptions.md R222); one that succeeds has run its loop on it. -/
theorem InstrShape.exec_obuf {i : Instr} {w : Nat} {out : Memory → Nat → Option (List Byte)}
    {body : Memory → Nat → Memory → Option Memory} {ch bits : Half} (shape : InstrShape i w out body ch bits)
    {s t : State} (h : exec i s = .next t) :
    t.obuf = s.obuf ∨ t.statusErr = 0 ∧ FramesDone w (out s.ibuf) (frameCount s) s.obuf t.obuf := by
  rw [shape.exec_eq] at h
  obtain ⟨e, -, hrun⟩ | ⟨-, -, hrun⟩ | ⟨m, -, hframes, hrun⟩ := runOperation_cases i (body s.ibuf) ch bits w s <;>
    rw [hrun] at h <;> cases h
  · exact .inl rfl
  · exact .inr ⟨rfl, frames_done (shape.blockBody s.ibuf) hframes⟩

/-- Settles O11: both ends of an operation write STATUS, ERR_* and OUT_* alone, and OBUF is left to the frame loop. -/
theorem instructionFrame : Obligations.InstructionFrame := by
  intro i s t h
  obtain ⟨out, body, ch, bits, shape⟩ := instr_shape i
  refine ⟨?_, fun a ha => ?_, fun herr => ?_⟩
  · cases exec_ended h <;> simp
  · obtain hkept | ⟨-, hdone⟩ := shape.exec_obuf h
    · rw [hkept]
    · exact hdone.read_of_outside (by split <;> decide) ha
  · exact (shape.exec_obuf h).resolve_right fun ⟨hok, _⟩ => herr hok

end Sys2Proof.Machine
end

section
/-! SUPPORT. The command word's fields, its masks, and the decoder read off them: which field values are each command, so
what R90 to R101 say of whole words follows from what they say of OP and MODE. -/

namespace Sys2Proof

/-! ## The fields of a word -/

/-- OP and MODE of a word written out field by field (R90). -/
@[simp] theorem opField_fields (hi : Half) (mode : BitVec 8) (lo op : BitVec 4) :
    opField (hi ++ mode ++ lo ++ op) = op := BitVec.extractLsb'_append_eq_right

@[simp] theorem modeField_fields (hi : Half) (mode : BitVec 8) (lo op : BitVec 4) :
    modeField (hi ++ mode ++ lo ++ op) = mode := by
  unfold modeField
  rw [BitVec.extractLsb'_append_eq_of_le (by decide), BitVec.extractLsb'_append_eq_of_le (by decide)]
  exact BitVec.extractLsb'_append_eq_right

@[simp] theorem opField_or (v w : Word) : opField (v ||| w) = opField v ||| opField w := BitVec.extractLsb'_or

@[simp] theorem opField_and (v w : Word) : opField (v &&& w) = opField v &&& opField w := BitVec.extractLsb'_and

@[simp] theorem modeField_or (v w : Word) : modeField (v ||| w) = modeField v ||| modeField w := BitVec.extractLsb'_or

@[simp] theorem modeField_and (v w : Word) : modeField (v &&& w) = modeField v &&& modeField w :=
  BitVec.extractLsb'_and

/-- A word is its four fields, the reserved bits 31:16 and 7:4 among them (R90). -/
theorem word_eq_fields (w : Word) : w = w.extractLsb' 16 16 ++ modeField w ++ w.extractLsb' 4 4 ++ opField w := by
  unfold modeField opField
  rw [BitVec.extractLsb'_append_extractLsb'_eq_extractLsb' (show 16 = 8 + 8 from rfl),
    BitVec.extractLsb'_append_extractLsb'_eq_extractLsb' (show 8 = 4 + 4 from rfl),
    BitVec.extractLsb'_append_extractLsb'_eq_extractLsb' (show 4 = 0 + 4 from rfl), BitVec.extractLsb'_eq_self]

/-- A mask that takes whole fields takes them field by field. -/
theorem fields_and (hi hi' : Half) (mode mode' : BitVec 8) (lo lo' op op' : BitVec 4) :
    (hi ++ mode ++ lo ++ op) &&& (hi' ++ mode' ++ lo' ++ op') =
      (hi &&& hi') ++ (mode &&& mode') ++ (lo &&& lo') ++ (op &&& op') := by
  rw [BitVec.and_append, BitVec.and_append, BitVec.and_append]

/-- The mask of PACK's and UNPACK's rows keeps OP alone. -/
theorem and_opMask (w : Word) : w &&& 0x0000000F#32 = 0#16 ++ 0#8 ++ 0#4 ++ opField w := by
  have hmask : 0x0000000F#32 = 0#16 ++ 0#8 ++ 0#4 ++ BitVec.allOnes 4 := rfl
  conv_lhs => rw [word_eq_fields w, hmask, fields_and]
  simp only [BitVec.and_zero, BitVec.and_allOnes]

/-- The mask of MONO's rows keeps OP and MODE. -/
theorem and_opModeMask (w : Word) : w &&& 0x0000FF0F#32 = 0#16 ++ modeField w ++ 0#4 ++ opField w := by
  have hmask : 0x0000FF0F#32 = 0#16 ++ BitVec.allOnes 8 ++ 0#4 ++ BitVec.allOnes 4 := rfl
  conv_lhs => rw [word_eq_fields w, hmask, fields_and]
  simp only [BitVec.and_zero, BitVec.and_allOnes]

theorem and_opMask_eq_iff (v w : Word) : v &&& 0x0000000F#32 = w &&& 0x0000000F#32 ↔ opField v = opField w := by
  rw [and_opMask, and_opMask, BitVec.append_right_inj]

theorem and_opModeMask_eq_iff (v w : Word) :
    v &&& 0x0000FF0F#32 = w &&& 0x0000FF0F#32 ↔ opField v = opField w ∧ modeField v = modeField w := by
  rw [and_opModeMask, and_opModeMask]
  constructor
  · intro h
    exact ⟨by simpa using congrArg opField h, by simpa using congrArg modeField h⟩
  · rintro ⟨hop, hmode⟩
    rw [hop, hmode]

/-! ## The opcode rows -/

/-- What each instruction's law says of its row holds of every instruction. -/
theorem tableRow (i : Instr) : Laws.TableRow.Statement i :=
  match i with
  | .monoLeft => Laws.TableRow.monoLeft
  | .monoRight => Laws.TableRow.monoRight
  | .monoSum => Laws.TableRow.monoSum
  | .monoDiff => Laws.TableRow.monoDiff
  | .pack => Laws.TableRow.pack
  | .unpack => Laws.TableRow.unpack

/-- MODE belongs to MONO's rows, those of OP = 0, and to no other (R93, R99). -/
theorem encodingMask_eq (i : Instr) :
    encodingMask i = if opField (encode i) = 0#4 then 0x0000FF0F#32 else 0x0000000F#32 := by
  cases i <;> rfl

/-- A word matches an instruction's row when it has the row's OP and, where that is MONO's, the row's MODE. -/
theorem and_encodingMask_eq_encode_iff (w : Word) (i : Instr) :
    w &&& encodingMask i = encode i ↔
      opField w = opField (encode i) ∧ (opField w = 0#4 → modeField w = modeField (encode i)) := by
  obtain ⟨-, hencode, -⟩ := tableRow i
  conv_lhs => rw [← hencode, encodingMask_eq]
  split_ifs with hmono
  · rw [and_opModeMask_eq_iff]
    exact and_congr_right fun hop => ⟨fun hmode _ => hmode, fun hmode => hmode (hop.trans hmono)⟩
  · rw [and_opMask_eq_iff]
    exact (and_iff_left_of_imp fun hop hzero => absurd (hop.symm.trans hzero) hmono).symm

/-! ## The decoder on the fields -/

/-- An instruction's fields are those of its match value, MODE only under MONO's OP. -/
theorem decodeFields_eq_legal_iff (op : BitVec 4) (mode : BitVec 8) (i : Instr) :
    decodeFields op mode = .legal i ↔
      op = opField (encode i) ∧ (op = 0#4 → mode = modeField (encode i)) := by
  constructor
  · intro h
    unfold decodeFields at h
    split_ifs at h <;> cases h <;> simp_all [encode, opField, modeField]
  · rintro ⟨rfl, hmode⟩
    cases i with
    | pack | unpack => rfl
    | monoLeft | monoRight | monoSum | monoDiff => rw [hmode rfl]; rfl

/-- The modes of the illegal class of MONO are 4 to 255 (R93). -/
theorem decodeFields_eq_monoInvalid_iff (op : BitVec 4) (mode m : BitVec 8) :
    decodeFields op mode = .monoInvalid m ↔ op = 0#4 ∧ 3#8 < mode ∧ mode = m := by
  constructor
  · intro h
    unfold decodeFields at h
    split_ifs at h
    cases h
    exact ⟨‹_›, by bv_omega, rfl⟩
  · rintro ⟨rfl, hmode, rfl⟩
    unfold decodeFields
    rw [if_pos rfl, if_neg, if_neg, if_neg, if_neg] <;> bv_omega

/-- The illegal OPs are 3 to 15 (R92). -/
theorem decodeFields_eq_illegal_iff (op o : BitVec 4) (mode : BitVec 8) :
    decodeFields op mode = .illegal o ↔ 2#4 < op ∧ op = o := by
  constructor
  · intro h
    unfold decodeFields at h
    split_ifs at h
    cases h
    exact ⟨by bv_omega, rfl⟩
  · rintro ⟨hop, rfl⟩
    unfold decodeFields
    rw [if_neg, if_neg, if_neg] <;> bv_omega

/-! ## The statements -/

/-- The reserved bits 31:16 and 7:4 reach neither field (R91), so no command depends on them. -/
theorem decodeWord_or_reserved (w reserved : Word) : decodeWord (w ||| (reserved &&& 0xFFFF00F0#32)) = decodeWord w := by
  have hop : opField 0xFFFF00F0#32 = 0#4 := rfl
  have hmode : modeField 0xFFFF00F0#32 = 0#8 := rfl
  simp [decodeWord, hop, hmode]

/-- A well-formed command is what its own word decodes to (R101, R102). -/
theorem decodeWord_encodeCommand {c : Command} (h : c.wf = true) : decodeWord (encodeCommand c) = c := by
  cases c with
  | legal i =>
    obtain ⟨-, -, hdecode⟩ := tableRow i
    exact hdecode
  | monoInvalid mode =>
    have hop : opField (encodeCommand (.monoInvalid mode)) = 0#4 :=
      BitVec.extractLsb'_append_eq_of_add_le (by decide)
    have hmode : modeField (encodeCommand (.monoInvalid mode)) = mode :=
      (BitVec.extractLsb'_append_eq_of_le (by decide)).trans BitVec.extractLsb'_append_eq_right
    exact (decodeFields_eq_monoInvalid_iff _ _ _).2 ⟨hop, by simpa [hmode] using of_decide_eq_true h, hmode⟩
  | illegal op =>
    have hop : opField (encodeCommand (.illegal op)) = op := BitVec.extractLsb'_append_eq_right
    exact (decodeFields_eq_illegal_iff _ _ _).2 ⟨by simpa [hop] using of_decide_eq_true h, hop⟩

/-- Settles O2: the reserved bits do not matter, and without them decode undoes encode. -/
theorem decodeOfEncodeWhateverTheReservedBits : Obligations.DecodeOfEncodeWhateverTheReservedBits := by
  intro c reserved hwf
  rw [decodeWord_or_reserved, decodeWord_encodeCommand hwf]

/-- Settles O3: the decoder and the row put the same condition on OP and MODE. -/
theorem opcodeRowsDecodeTheirWords : Obligations.OpcodeRowsDecodeTheirWords := by
  intro w i
  rw [and_encodingMask_eq_encode_iff]
  exact decodeFields_eq_legal_iff _ _ i

/-- Settles O4, by what the word decodes to. -/
theorem decoderCoversEveryWord : Obligations.DecoderCoversEveryWord := by
  intro w
  cases hw : decodeWord w with
  | legal i => exact .inl ⟨i, (opcodeRowsDecodeTheirWords w i).1 hw, rfl⟩
  | monoInvalid mode =>
    obtain ⟨hop, hmode, rfl⟩ := (decodeFields_eq_monoInvalid_iff _ _ _).1 hw
    exact .inr (.inl ⟨hop, hmode, rfl⟩)
  | illegal op =>
    obtain ⟨hop, rfl⟩ := (decodeFields_eq_illegal_iff _ _ _).1 hw
    exact .inr (.inr ⟨hop, rfl⟩)

/-- Settles O1: each word's fields are numerals. -/
theorem knownCommandWordsDecode : Obligations.KnownCommandWordsDecode := by
  unfold Obligations.KnownCommandWordsDecode
  decide

end Sys2Proof

namespace Sys2Proof.Machine

/-- The engine's turn runs the latched instruction (R101, R124). -/
theorem step_of_engineMoves_legal {s u : State} {i : Instr} (hmoves : s.EngineMovesFrom u)
    (hi : latchedCommand u = .legal i) : step s = exec i u := by
  rw [step_of_engineMoves hmoves, completionStep_of_legal hi]

/-- Settles O19, on both of the engine's turns: a used-up turn leaves the latched command as it was. -/
theorem stepRunsTheLatchedInstruction : Obligations.StepRunsTheLatchedInstruction := by
  intro s i hi hbusy hreset
  exact ⟨fun hs => step_of_engineMoves_legal ⟨hbusy, hreset, .inl ⟨hs, rfl⟩⟩ hi,
    fun rest hs => step_of_engineMoves_legal ⟨hbusy, hreset, .inr ⟨rest, hs, rfl⟩⟩ hi⟩

end Sys2Proof.Machine
end

section
/-! SUPPORT. What an instruction does with a ready payload, for the shape all six share, and MONO's selection on each
frame of it. -/

namespace Sys2Proof.Machine

/-! ## An instruction on a ready payload -/

section
variable {i : Instr} {w : Nat} {out : Memory → Nat → Option (List Byte)} {body : Memory → Nat → Memory → Option Memory}
  {ch bits : Half}

theorem InstrShape.exec_of_error (shape : InstrShape i w out body ch bits) {s : State} {e : OpError}
    (hcheck : check i s.lat s.bufBytes = some e) : exec i s = .next (s.raiseError e) := by
  simp only [shape.exec_eq, runOperation, hcheck]

theorem InstrShape.exec_of_unwritten (shape : InstrShape i w out body ch bits) {s : State}
    (hcheck : check i s.lat s.bufBytes = none) (hframes : frames (body s.ibuf) (frameCount s) s.obuf = none) :
    exec i s = .fault .unwrittenInput := by
  simp only [shape.exec_eq, runOperation, hcheck, hframes]

theorem InstrShape.exec_of_frames (shape : InstrShape i w out body ch bits) {s : State} {m : Memory}
    (hcheck : check i s.lat s.bufBytes = none) (hframes : frames (body s.ibuf) (frameCount s) s.obuf = some m) :
    exec i s = .next (State.complete ch bits (BitVec.ofNat 32 (w * frameCount s)) { s with obuf := m }) := by
  simp only [shape.exec_eq, runOperation, hcheck, hframes]

/-- With its precondition met and its payload ready, an instruction succeeds and has run its loop on OBUF
(spec/40_control.md R124, R127). -/
theorem InstrShape.exec_of_ready (shape : InstrShape i w out body ch bits) {s : State}
    (hpre : preconditionError s.lat i = none) (hready : s.PayloadReady) :
    ∃ m, exec i s = .next (s.succeededWith m ch bits (w * frameCount s)) ∧
      FramesDone w (out s.ibuf) (frameCount s) s.obuf m := by
  have hcheck : check i s.lat s.bufBytes = none :=
    (check_eq_none _ _ _).2 ⟨hpre, hready.inRange, hready.wholeFrames⟩
  cases hframes : frames (body s.ibuf) (frameCount s) s.obuf with
  | none =>
    obtain ⟨a, ha, hunwritten⟩ := (shape.frames_eq_none hready.wholeFrames).1 hframes
    have hwritten := hready.written a ha
    simp [hunwritten] at hwritten
  | some m => exact ⟨m, shape.exec_of_frames hcheck hframes, frames_done (shape.blockBody s.ibuf) hframes⟩

end

/-! ## MONO -/

/-- The selection of two samples is a sample: the halves floor inside the range (spec/41_channel_select.md R151). -/
theorem monoSel_fits (mode : Mode) {l r : Int} (hl : FitsS16 l) (hr : FitsS16 r) : FitsS16 (monoSel mode l r) := by
  cases mode with
  | left => exact hl
  | right => exact hr
  | sumAvg => simp only [monoSel, fdiv2_eq]; omega
  | diffAvg => simp only [monoSel, fdiv2_eq]; omega

/-- The bytes MONO writes for a frame are its selection's, read back as a sample (R150). -/
theorem readSample_of_monoBytes {mode : Mode} {ibuf m : Memory} {k a : Nat} {bs : List Byte}
    (hbs : monoBytes mode ibuf k = some bs) (hread : ∀ j, j < 2 → Memory.read m (a + j) = bs[j]?) :
    ∃ l r, readFrame ibuf k = some (l, r) ∧ readSample m a = some (monoSel mode l r) := by
  obtain ⟨⟨l, r⟩, hframe, rfl⟩ := Option.map_eq_some_iff.1 hbs
  obtain ⟨hl, hr⟩ := readFrame_eq_some.1 hframe
  exact ⟨l, r, hframe, readSample_of_bytes (monoSel_fits mode (readSample_fits hl) (readSample_fits hr)) hread⟩

/-- What R152 to R155 share: MONO under any mode turns each frame of a ready payload into its selection. -/
theorem mono_completes {i : Instr} {mode : Mode}
    (shape : InstrShape i 2 (monoBytes mode) (monoFrame mode) 1 16) {s : State}
    (hpre : preconditionError s.lat i = none) (hready : s.PayloadReady) :
    ∃ m, exec i s = .next (s.succeededWith m 1 16 (s.lat.len.toNat / 2)) ∧
      (∀ k, k < s.lat.len.toNat / 4 →
        ∃ l r, readFrame s.ibuf k = some (l, r) ∧ readSample m (2 * k) = some (monoSel mode l r)) ∧
      ∀ a, s.lat.len.toNat / 2 ≤ a → Memory.read m a = Memory.read s.obuf a := by
  obtain ⟨m, hexec, hdone⟩ := shape.exec_of_ready hpre hready
  have hlen : 2 * frameCount s = s.lat.len.toNat / 2 := by
    have := hready.wholeFrames
    unfold frameCount
    omega
  rw [hlen] at hexec
  refine ⟨m, hexec, fun k hk => ?_, fun a ha => hdone.beyond a (hlen.trans_le ha)⟩
  obtain ⟨bs, hbs, hread⟩ := hdone.block k hk
  exact readSample_of_monoBytes hbs hread

/-- Settles O5. -/
theorem monoLeftCompletes : Obligations.MonoLeftCompletes := fun _ hch hready =>
  mono_completes monoLeft_shape ((channelError_eq_none _).2 hch) hready

/-- Settles O6. -/
theorem monoRightCompletes : Obligations.MonoRightCompletes := fun _ hch hready =>
  mono_completes monoRight_shape ((channelError_eq_none _).2 hch) hready

/-- Settles O7. -/
theorem monoSumCompletes : Obligations.MonoSumCompletes := fun _ hch hready =>
  mono_completes monoSum_shape ((channelError_eq_none _).2 hch) hready

/-- Settles O8. -/
theorem monoDiffCompletes : Obligations.MonoDiffCompletes := fun _ hch hready =>
  mono_completes monoDiff_shape ((channelError_eq_none _).2 hch) hready

end Sys2Proof.Machine
end

section
/-! SUPPORT. The end of a running operation: when it has one, and that it depends on the latches and the latched payload
alone, by comparing two completions case by case. -/

namespace Sys2Proof.Machine

/-! ## A running operation ends -/

/-- Both ends of an operation leave DONE = 1, BUSY = 0 and a code of spec/60_exceptions.md R221, or 0. -/
theorem Ended.status {s t : State} (h : Ended s t) :
    t.statusBusy = false ∧ t.statusDone = true ∧ t.statusErr.toNat ≤ 6 := by
  cases h with
  | failed e => exact ⟨rfl, rfl, (errorCode_bounds e.kind).2⟩
  | succeeded => exact ⟨rfl, rfl, Nat.zero_le 6⟩

/-- An instruction whose payload is written answers a next state (R38). -/
theorem exec_answers {i : Instr} {s : State} (hwritten : Memory.WrittenBelow s.ibuf s.lat.len.toNat) :
    ∃ t, exec i s = .next t := by
  obtain ⟨hfault, hrefused⟩ := unwrittenPayloadIsTheOnlyStop i s
  cases h : exec i s with
  | next t => exact ⟨t, rfl⟩
  | fault f =>
    obtain ⟨-, -, -, -, a, ha, hunwritten⟩ := (hfault f).1 h
    have := hwritten a ha
    simp [hunwritten] at this
  | refused r => exact absurd h (hrefused r)

/-- So does every completion step: the illegal classes read no byte (R224, R225). -/
theorem completionStep_answers {s : State} (hwritten : Memory.WrittenBelow s.ibuf s.lat.len.toNat) :
    ∃ t, completionStep s = .next t := by
  unfold completionStep
  cases latchedCommand s with
  | legal i => exact exec_answers hwritten
  | monoInvalid mode => exact ⟨_, rfl⟩
  | illegal op => exact ⟨_, rfl⟩

/-- Where the engine moves from differs in the schedule alone (log 1). -/
theorem State.EngineMovesFrom.eq_except_schedule {s u : State} (h : s.EngineMovesFrom u) :
    u = { s with schedule := u.schedule } := by
  obtain ⟨-, -, ⟨-, rfl⟩ | ⟨rest, -, rfl⟩⟩ := h <;> rfl

/-- Settles O22: the completion step answers, and an answer is an end. -/
theorem runningOperationEnds : Obligations.RunningOperationEnds := by
  intro s u hmoves hwritten
  rw [step_of_engineMoves hmoves, hmoves.eq_except_schedule]
  obtain ⟨t, ht⟩ := completionStep_answers (s := { s with schedule := u.schedule }) hwritten
  exact ⟨t, ht, (completionStep_ended ht).status⟩

/-! ## Two completions on the same latches and payload -/

/-- The frame loop leaves the same blocks when the frames have the same values, whatever OBUF held. -/
theorem FramesDone.read_eq {w n : Nat} {out out' : Nat → Option (List Byte)} {m₀ m₀' m m' : Memory}
    (h : FramesDone w out n m₀ m) (h' : FramesDone w out' n m₀' m') (hout : ∀ k, k < n → out k = out' k) {a : Nat}
    (ha : a < w * n) : Memory.read m a = Memory.read m' a := by
  have hw : 0 < w := Nat.pos_of_mul_pos_right (Nat.zero_lt_of_lt ha)
  have hk : a / w < n := Nat.div_lt_of_lt_mul ha
  obtain ⟨bs, hbs, hread⟩ := h.block (a / w) hk
  obtain ⟨bs', hbs', hread'⟩ := h'.block (a / w) hk
  have hsame : bs = bs' := Option.some.inj (hbs.symm.trans ((hout _ hk).trans hbs'))
  rw [← Nat.div_add_mod a w, hread _ (Nat.mod_lt a hw), hread' _ (Nat.mod_lt a hw), hsame]

/-- The length of an instruction's result fits OUT_LEN: it is at most the payload's. -/
theorem outLen_toNat {w : Nat} (hw : w ≤ 4) (s : State) :
    (BitVec.ofNat 32 (w * frameCount s)).toNat = w * frameCount s := by
  have hpayload : w * frameCount s ≤ s.lat.len.toNat := (Nat.mul_le_mul_right _ hw).trans (Nat.mul_div_le _ 4)
  rw [BitVec.toNat_ofNat, Nat.mod_eq_of_lt (hpayload.trans_lt s.lat.len.isLt)]

/-- What R122 reads of the state: the latches and the latched payload, in blocks of one size. -/
structure SameOperation (s s' : State) : Prop where
  lat : s.lat = s'.lat
  bufBytes : s.bufBytes = s'.bufBytes
  payload : ∀ a, a < s.lat.len.toNat → Memory.read s.ibuf a = Memory.read s'.ibuf a

/-- The ways the operations of `s` and `s'` end alike: the same fault, the same error, or the same result descriptor and
payload, the first operation leaving its OBUF beyond the payload. -/
inductive EndsAlike (s s' : State) : Result → Result → Prop
  | fault (f : Fault) : EndsAlike s s' (.fault f) (.fault f)
  | failed (e : OpError) : EndsAlike s s' (.next (s.raiseError e)) (.next (s'.raiseError e))
  | succeeded (m m' : Memory) (ch bits : Half) (len : Word) :
      (∀ a, a < len.toNat → Memory.read m a = Memory.read m' a) →
      (∀ a, len.toNat ≤ a → Memory.read m a = Memory.read s.obuf a) →
      EndsAlike s s' (.next (State.complete ch bits len { s with obuf := m }))
        (.next (State.complete ch bits len { s' with obuf := m' }))

/-- An instruction's checks read the latches and the buffer size, and its loop the frames of the payload. -/
theorem exec_endsAlike (i : Instr) {s s' : State} (h : SameOperation s s') :
    EndsAlike s s' (exec i s) (exec i s') := by
  obtain ⟨w, out, body, ch, bits, shape, hw, -⟩ := instr_shape_resultForm i
  have hcount : frameCount s' = frameCount s := by rw [frameCount, frameCount, h.lat]
  have hcheck' : check i s'.lat s'.bufBytes = check i s.lat s.bufBytes := by rw [h.lat, h.bufBytes]
  have hout : ∀ k, k < frameCount s → out s.ibuf k = out s'.ibuf k := fun k hk =>
    shape.out_congr _ _ k fun j hj => h.payload _ (by unfold frameCount at hk; omega)
  have hsome : (frames (body s.ibuf) (frameCount s) s.obuf).isSome ↔
      (frames (body s'.ibuf) (frameCount s') s'.obuf).isSome := by
    rw [frames_isSome (shape.blockBody s.ibuf), frames_isSome (shape.blockBody s'.ibuf), hcount]
    exact forall₂_congr fun k hk => by rw [hout k hk]
  cases hcheck : check i s.lat s.bufBytes with
  | some e =>
    rw [shape.exec_of_error hcheck, shape.exec_of_error (hcheck'.trans hcheck)]
    exact .failed e
  | none =>
    cases hframes : frames (body s.ibuf) (frameCount s) s.obuf with
    | none =>
      have hframes' : frames (body s'.ibuf) (frameCount s') s'.obuf = none := by simpa [hframes] using hsome
      rw [shape.exec_of_unwritten hcheck hframes, shape.exec_of_unwritten (hcheck'.trans hcheck) hframes']
      exact .fault _
    | some m =>
      obtain ⟨m', hframes'⟩ := Option.isSome_iff_exists.1 (hsome.1 (by rw [hframes]; rfl))
      have hdone := frames_done (shape.blockBody s.ibuf) hframes
      have hdone' := frames_done (shape.blockBody s'.ibuf) hframes'
      rw [hcount] at hdone'
      rw [shape.exec_of_frames hcheck hframes, shape.exec_of_frames (hcheck'.trans hcheck) hframes', hcount]
      apply EndsAlike.succeeded <;> rw [outLen_toNat hw]
      · exact fun a ha => hdone.read_eq hdone' hout ha
      · exact hdone.beyond

/-- The decoder reads the latches alone, and so do the errors of the illegal classes. -/
theorem completionStep_endsAlike {s s' : State} (h : SameOperation s s') :
    EndsAlike s s' (completionStep s) (completionStep s') := by
  have hcommand : latchedCommand s' = latchedCommand s := by rw [latchedCommand, latchedCommand, h.lat]
  simp only [completionStep, hcommand]
  cases latchedCommand s with
  | legal i => exact exec_endsAlike i h
  | monoInvalid mode => rw [h.lat]; exact .failed _
  | illegal op => exact .failed _

/-- A used-up turn is no part of the operation. -/
theorem SameOperation.of_engineMoves {s s' u u' : State} (hmoves : s.EngineMovesFrom u)
    (hmoves' : s'.EngineMovesFrom u') (h : SameOperation s s') : SameOperation u u' := by
  rw [hmoves.eq_except_schedule, hmoves'.eq_except_schedule]
  exact { h with }

/-- Settles O23: the completions end alike, and each register of R122's result is the same at either end. -/
theorem operationsAreIsolated : Obligations.OperationsAreIsolated := by
  intro s s' u u' hmoves hmoves' hlat hsize hpayload
  have hsame : SameOperation u u' := SameOperation.of_engineMoves hmoves hmoves' ⟨hlat, hsize, hpayload⟩
  have hobuf : u.obuf = s.obuf := by rw [hmoves.eq_except_schedule]
  have halike := completionStep_endsAlike hsame
  rw [step_of_engineMoves hmoves, step_of_engineMoves hmoves', ← hobuf]
  generalize completionStep u = r at halike
  generalize completionStep u' = r' at halike
  cases halike with
  | fault f => exact ⟨fun _ h => h, nofun⟩
  | failed e =>
    refine ⟨nofun, fun t ht => ?_⟩
    cases ht
    exact ⟨_, rfl, rfl, rfl, rfl, rfl, rfl, rfl, rfl, fun a ha => absurd ha (Nat.not_lt_zero a), fun _ _ => rfl⟩
  | succeeded m m' ch bits len hpayload hbeyond =>
    refine ⟨nofun, fun t ht => ?_⟩
    cases ht
    have hrate : u.lat.rate = u'.lat.rate := by rw [hsame.lat]
    exact ⟨_, rfl, rfl, rfl, rfl, rfl, rfl, hrate, rfl, hpayload, hbeyond⟩

end Sys2Proof.Machine
end

section
/-! SUPPORT. WAIT and the access that wakes the block: one poll, the poll that never ends, the run of START and WAIT,
and that nothing but a START sets BUSY. -/

namespace Sys2Proof.Machine

/-! ## One poll -/

/-- Settles O44, by what DONE is. -/
theorem waitPollsDone : Obligations.WaitPollsDone := by
  intro s hr
  have hpolled : polledStatus s = statusWord s := by simp [polledStatus, hr]
  simp only [hostAccess, hostWait, hpolled, statusWord_getLsbD_one]
  cases hd : s.statusDone with
  | true => simp [State.reply, State.noteRead, hd]
  | false => simp [State.reply]

/-- The host polls when it is its turn and a WAIT is next. -/
theorem step_of_wait {s : State} {rest : List HostOp} (hs : s.schedule = []) (hr : s.inReset = false)
    (hb : s.statusBusy = false) (hh : s.hostOps = .wait :: rest) :
    step s = .next
      { s with
        reads := s.reads ++ [statusWord s], doneUnseen := s.doneUnseen && !s.statusDone,
        hostOps := if s.statusDone then rest else .wait :: rest } := by
  obtain ⟨hturn, -⟩ := stepMakesTheHostsAccess s .wait rest hh
  rw [hturn hs (.inl hb)]
  exact waitPollsDone { s with hostOps := rest } hr

/-! ## A WAIT that hangs -/

/-- A WAIT is next, with no operation running or done and nothing scheduled. -/
structure State.Hangs (s : State) (rest : List HostOp) : Prop where
  unscheduled : s.schedule = []
  released : s.inReset = false
  idle : s.statusBusy = false
  notDone : s.statusDone = false
  waiting : s.hostOps = .wait :: rest

theorem State.Hangs.step {s : State} {rest : List HostOp} (h : s.Hangs rest) : ∃ t, step s = .next t ∧ t.Hangs rest :=
  ⟨_, step_of_wait h.unscheduled h.released h.idle h.waiting, { h with waiting := by simp [h.notDone] }⟩

theorem State.Hangs.run {s : State} {rest : List HostOp} (h : s.Hangs rest) (k : Nat) :
    ∃ t, Host.Core.run Sys2Proof.core k s = .next t ∧ t.Hangs rest := by
  induction k generalizing s with
  | zero => exact ⟨s, rfl, h⟩
  | succ k ih =>
    obtain ⟨t, hstep, ht⟩ := h.step
    rw [run_succ hstep]
    exact ih ht

/-- Settles O45: each step leads from a hanging WAIT to the same. -/
theorem waitWithoutStartHangs : Obligations.WaitWithoutStartHangs := by
  intro s rest hs hr hb hd hh k
  obtain ⟨t, hrun, ht⟩ := State.Hangs.run ⟨hs, hr, hb, hd, hh⟩ k
  exact ⟨t, hrun, ht.waiting, ht.notDone⟩

/-! ## START, the completion and WAIT -/

/-- The end of an operation is no access of the host and no turn of another agent. -/
theorem Ended.outside_eq {s t : State} (h : Ended s t) :
    t.hostOps = s.hostOps ∧ t.schedule = s.schedule ∧ t.inReset = s.inReset ∧ t.reads = s.reads := by
  cases h <;> exact ⟨rfl, rfl, rfl, rfl⟩

/-- An idle block accepts the START that is next (spec/40_control.md R121). -/
theorem step_of_start {s : State} {rest : List HostOp} (hs : s.schedule = []) (hr : s.inReset = false)
    (hb : s.statusBusy = false) (hh : s.hostOps = pseudoStart ++ rest) :
    step s = .next (State.acceptStart { s with hostOps := rest }) := by
  obtain ⟨hturn, -⟩ := stepMakesTheHostsAccess s (.wr 0x00 4 1) rest hh
  rw [hturn hs (.inl hb)]
  exact acceptedStartLatches { s with hostOps := rest } 1 hr hb rfl

/-- Right after an accepted START the engine completes, when the payload IN_LEN names is written (R124, R125). -/
theorem step_of_acceptStart {s : State} (hs : s.schedule = []) (hr : s.inReset = false)
    (hwritten : Memory.WrittenBelow s.ibuf s.inLen.toNat) :
    ∃ t, step s.acceptStart = .next t ∧ Ended s.acceptStart t := by
  obtain ⟨t, ht⟩ := completionStep_answers (s := s.acceptStart) hwritten
  exact ⟨t, (step_of_running (s := s.acceptStart) hs rfl hr).trans ht, completionStep_ended ht⟩

/-- Settles O46: the START is accepted, the engine completes, and the poll sees DONE = 1. -/
theorem startThenWaitEnds : Obligations.StartThenWaitEnds := by
  intro s rest hs hr hb hh hwritten
  have hstart := step_of_start hs hr hb hh
  obtain ⟨t, hengine, hend⟩ := step_of_acceptStart (s := { s with hostOps := .wait :: rest }) hs hr hwritten
  obtain ⟨hops, hschedule, hreset, hreads⟩ := hend.outside_eq
  obtain ⟨hbusy, hdone, -⟩ := hend.status
  have hpoll := step_of_wait (hschedule.trans hs) (hreset.trans hr) hbusy hops
  refine ⟨_, statusWord t, (run_succ hstart).trans ((run_succ hengine).trans (run_succ hpoll)), ?_⟩
  have hlat : t.lat = latchesFrom s := hend.lat_eq
  have hread : t.reads = s.reads := hreads
  have hbit : (statusWord t).getLsbD 1 = true := (statusWord_getLsbD_one t).trans hdone
  simp [hdone, hbusy, hlat, hread, hbit, latchesFrom]

/-! ## What wakes the block -/

/-- The host's access that sets BUSY is a START, and it latches CMD and IN_* (spec/10_state.md R36). -/
theorem HostEffect.wakes {h : HostOp} {s t : State} (ht : HostEffect s h t) (hb : s.statusBusy = false)
    (hb' : t.statusBusy = true) :
    ∃ v, h = .wr 0x00 4 v ∧ v.getLsbD 0 = true ∧ s.inReset = false ∧ t.lat = latchesFrom s := by
  by_cases hstart : ∃ v, h = .wr 0x00 4 v ∧ v.getLsbD 0 = true
  · obtain ⟨v, rfl, hv⟩ := hstart
    cases ht with
    | wrHeld => exact nomatch hb.symm.trans hb'
    | wr _ _ _ _ hr =>
      refine ⟨v, rfl, hv, hr, ?_⟩
      rw [writeReg_ctrl, if_pos hv, State.start_of_idle s hb]
      rfl
  · have hside : t = s.withHostSide t := ht.hostSide fun v hop hv => absurd ⟨v, hop, hv⟩ hstart
    rw [hside] at hb'
    exact nomatch hb.symm.trans hb'

/-- Settles O52: of the agents' turns, a completion needs BUSY = 1 and the reset input leaves BUSY as it is or 0, so it
was the host's. -/
theorem onlyStartWakesTheBlock : Obligations.OnlyStartWakesTheBlock := by
  intro s t h hb hb'
  cases step_moved h with
  | host op rest turns t hops hacc =>
    obtain ⟨v, rfl, hv, hr, hlat⟩ := (hostAccess_effect hacc).wakes hb hb'
    exact ⟨v, rest, hops, hv, hr, hlat⟩
  | engine turns t hbusy => exact nomatch hb.symm.trans hbusy
  | idle turns => exact nomatch hb.symm.trans hb'
  | asserted turns => exact nomatch hb.symm.trans hb'
  | released turns hr => exact nomatch hb'.symm.trans (releaseReset_statusBusy hr)

end Sys2Proof.Machine
end

section
/-! SUPPORT. The channel selector's edges: what an invalid mode of MONO ends with, and that no selection of two samples
leaves the sample range (spec/41_channel_select.md). -/

namespace Sys2Proof.Machine

/-! ## An invalid mode -/

/-- The failed end of an operation, as the engine makes it and as R222 lists it. -/
theorem State.raiseError_eq_failedWith (e : OpError) (s : State) :
    s.raiseError e = s.failedWith (errorCode e.kind) e.found e.expected := rfl

/-- OP 0 with a MODE of 4 or more is the illegal class of MONO (R93, R156). -/
theorem latchedCommand_of_invalidMode {s : State} (hop : s.lat.op = 0#4) (hmode : 4 ≤ s.lat.mode.toNat) :
    latchedCommand s = .monoInvalid s.lat.mode :=
  (decodeFields_eq_monoInvalid_iff _ _ _).2 ⟨hop, by bv_omega, rfl⟩

theorem completionStep_of_monoInvalid {s : State} {mode : BitVec 8} (h : latchedCommand s = .monoInvalid mode) :
    completionStep s = .next (s.raiseError (monoInvalidError mode s.lat)) := by
  simp only [completionStep, h]

/-- With two channels the invalid mode is what fails (R224). -/
theorem monoInvalidError_of_stereo {lat : Latches} (h : lat.ch = 2#16) (mode : BitVec 8) :
    monoInvalidError mode lat = ⟨.invalidMode, mode.setWidth 32, 3⟩ := by
  simp only [monoInvalidError, (channelError_eq_none lat).2 h, Option.getD_none]

/-- With any other channel count the channel check, which comes first, is what fails (R156, R229). -/
theorem monoInvalidError_of_not_stereo {lat : Latches} (h : lat.ch ≠ 2#16) (mode : BitVec 8) :
    monoInvalidError mode lat = ⟨.channelMismatch, lat.ch.setWidth 32, 2⟩ := by
  simp only [monoInvalidError, channelError, if_neg h, Option.getD_some]

/-- Settles O16: the engine's turn completes the latched invalid mode, and the channel count decides which error. -/
theorem invalidModeEndsWithItsError : Obligations.InvalidModeEndsWithItsError := by
  intro s u hmoves hop hmode
  have hlat : u.lat = s.lat := by rw [hmoves.eq_except_schedule]
  rw [← hlat] at hop hmode ⊢
  rw [step_of_engineMoves hmoves, completionStep_of_monoInvalid (latchedCommand_of_invalidMode hop hmode),
    State.raiseError_eq_failedWith]
  split
  case isTrue hch => rw [monoInvalidError_of_stereo hch]; rfl
  case isFalse hch => rw [monoInvalidError_of_not_stereo hch]; rfl

/-! ## The selector -/

/-- Settles O24: a selection of samples is a sample, so its low 16 bits hold it. -/
theorem selectorFloorsAndNeverOverflows : Obligations.SelectorFloorsAndNeverOverflows := by
  intro l r
  refine ⟨⟨rfl, rfl, fdiv2_eq _, fdiv2_eq _⟩, fun mode hl hr => ?_⟩
  have hfits : FitsS16 (monoSel mode l r) := monoSel_fits mode hl hr
  exact ⟨hfits, s16_lo16_of_fits hfits⟩

end Sys2Proof.Machine
end

section
/-! SUPPORT. The sum-difference packer and unpacker (spec/42_sumdiff_pack.md): the arithmetic of a frame and its packed
word, what PACK and UNPACK do to a ready payload, and the stream that goes through both. -/

namespace Sys2Proof.Machine

/-! ## PACK's arithmetic -/

theorem lo16_add (x y : Int) : lo16 (x + y) = lo16 x + lo16 y := BitVec.ofInt_add x y

theorem lo16_sub (x y : Int) : lo16 (x - y) = lo16 x - lo16 y := by
  rw [eq_sub_iff_add_eq, ← lo16_add, Int.sub_add_cancel]

/-- Settles O25: narrowing to 16 bits commutes with the sum and the difference. -/
theorem packIsModularArithmetic : Obligations.PackIsModularArithmetic := by
  intro p q
  rw [packWord, lo16_add, lo16_sub, lo16_s16, lo16_s16]

/-! ## The lanes' parity -/

/-- A packed word is its two lanes (R183). -/
theorem sumLane_append_diffLane (w : Word) : sumLane w ++ diffLane w = w := by
  rw [sumLane, diffLane, BitVec.extractLsb'_append_extractLsb'_eq_extractLsb' (show 16 = 0 + 16 from rfl),
    BitVec.extractLsb'_eq_self]

/-- Bit 0 of a pattern is the parity of its two's-complement value. -/
theorem getLsbD_zero_eq_parity (p : Half) : p.getLsbD 0 = decide (s16 p % 2 = 1) := by
  rw [s16, BitVec.toInt_eq_toNat_cond, BitVec.getLsbD, Nat.testBit_zero, decide_eq_decide]
  split <;> omega

/-- Bits 16 and 0 of a word are the lowest bits of its lanes, so they are equal when the lanes have one parity. -/
theorem equalParity_iff (w : Word) :
    w.getLsbD 16 = w.getLsbD 0 ↔ s16 (sumLane w) % 2 = s16 (diffLane w) % 2 := by
  have hsum : w.getLsbD 16 = (sumLane w).getLsbD 0 := by simp [sumLane]
  have hdiff : w.getLsbD 0 = (diffLane w).getLsbD 0 := by simp [diffLane]
  rw [hsum, hdiff, getLsbD_zero_eq_parity, getLsbD_zero_eq_parity, decide_eq_decide]
  omega

/-! ## UNPACK's arithmetic -/

theorem unpackWord_fst (w : Word) : (unpackWord w).1 = (s16 (sumLane w) + s16 (diffLane w)) / 2 := rfl

theorem unpackWord_snd (w : Word) : (unpackWord w).2 = (s16 (sumLane w) - s16 (diffLane w)) / 2 := rfl

/-- Half of a sum or a difference of two samples is a sample (R192). -/
theorem unpackWord_fits (w : Word) : FitsS16 (unpackWord w).1 ∧ FitsS16 (unpackWord w).2 := by
  have hsum : FitsS16 (s16 (sumLane w)) := s16_fits _
  have hdiff : FitsS16 (s16 (diffLane w)) := s16_fits _
  rw [unpackWord_fst, unpackWord_snd]
  omega

/-- Lanes of one parity have an even sum and an even difference, whose halves are exact (R193). -/
theorem two_mul_unpackWord {w : Word} (h : w.getLsbD 16 = w.getLsbD 0) :
    2 * (unpackWord w).1 = s16 (sumLane w) + s16 (diffLane w) ∧
      2 * (unpackWord w).2 = s16 (sumLane w) - s16 (diffLane w) := by
  have hparity := (equalParity_iff w).1 h
  rw [unpackWord_fst, unpackWord_snd]
  omega

/-- Lanes of different parities have an odd sum and an odd difference, whose halves floor (R193). -/
theorem two_mul_unpackWord_of_ne {w : Word} (h : w.getLsbD 16 ≠ w.getLsbD 0) :
    2 * (unpackWord w).1 = s16 (sumLane w) + s16 (diffLane w) - 1 ∧
      2 * (unpackWord w).2 = s16 (sumLane w) - s16 (diffLane w) - 1 := by
  have hparity := (equalParity_iff w).not.1 h
  rw [unpackWord_fst, unpackWord_snd]
  omega

/-- Settles O27. -/
theorem unpackFitsAndFloors : Obligations.UnpackFitsAndFloors := fun w =>
  ⟨(unpackWord_fits w).1, (unpackWord_fits w).2, two_mul_unpackWord, two_mul_unpackWord_of_ne⟩

/-! ## PACK and UNPACK of one frame -/

/-- The sum and the difference of two integers have one parity, and wrapping to 16 bits keeps it (R185). -/
theorem packWord_equalParity (l r : Int) : (packWord l r).getLsbD 16 = (packWord l r).getLsbD 0 := by
  rw [equalParity_iff, sumLane_packWord, diffLane_packWord, s16_lo16, s16_lo16]
  omega

/-- Exact halves add and subtract to the lanes they came from (R185). -/
theorem packWord_unpackWord {w : Word} (h : w.getLsbD 16 = w.getLsbD 0) :
    packWord (unpackWord w).1 (unpackWord w).2 = w := by
  obtain ⟨hleft, hright⟩ := two_mul_unpackWord h
  have hsum : (unpackWord w).1 + (unpackWord w).2 = s16 (sumLane w) := by omega
  have hdiff : (unpackWord w).1 - (unpackWord w).2 = s16 (diffLane w) := by omega
  rw [packWord, hsum, hdiff, lo16_s16, lo16_s16, sumLane_append_diffLane]

/-- Settles O26: a word of equal parity is made from its own unpacking. -/
theorem packImageIsEqualParity : Obligations.PackImageIsEqualParity := by
  refine fun w => ⟨⟨?_, fun h => ?_⟩, packWord_unpackWord⟩
  · rintro ⟨l, r, -, -, rfl⟩
    exact packWord_equalParity l r
  · exact ⟨_, _, (unpackWord_fits w).1, (unpackWord_fits w).2, packWord_unpackWord h⟩

/-- Wrapping moves the sum and the difference by multiples of 2^16, and both halves are unmoved only when neither
moved (R194). -/
theorem unpackWord_packWord_eq_iff (l r : Int) :
    unpackWord (packWord l r) = (l, r) ↔ FitsS16 (l + r) ∧ FitsS16 (l - r) := by
  rw [Prod.ext_iff, unpackWord_fst, unpackWord_snd, sumLane_packWord, diffLane_packWord]
  constructor
  · rintro ⟨hleft, hright⟩
    rw [s16_lo16, s16_lo16] at hleft hright
    omega
  · rintro ⟨hsum, hdiff⟩
    rw [s16_lo16_of_fits hsum, s16_lo16_of_fits hdiff]
    omega

/-- Settles O28: samples of half the range have a sum and a difference in it. -/
theorem frameRoundTrip : Obligations.FrameRoundTrip := by
  refine fun l r _ _ => ⟨unpackWord_packWord_eq_iff l r, fun hhalf => ?_⟩
  rw [unpackWord_packWord_eq_iff]
  omega

/-! ## PACK and UNPACK of a payload -/

/-- A ready payload is its whole frames. -/
theorem State.PayloadReady.four_mul_frameCount {s : State} (h : s.PayloadReady) :
    4 * frameCount s = s.lat.len.toNat := Nat.mul_div_cancel' (Nat.dvd_of_mod_eq_zero h.wholeFrames)

/-- The bytes PACK writes for a frame, read back as a word (R180). -/
theorem readPacked_of_packBytes {ibuf m : Memory} {k : Nat} {bs : List Byte} (hbs : packBytes ibuf k = some bs)
    (hread : ∀ j, j < 4 → Memory.read m (4 * k + j) = bs[j]?) :
    ∃ l r, readFrame ibuf k = some (l, r) ∧ readPacked m k = some (packWord l r) := by
  obtain ⟨⟨l, r⟩, hframe, rfl⟩ := Option.map_eq_some_iff.1 hbs
  refine ⟨l, r, hframe, ?_⟩
  rw [readPacked, memRead_of_bytes hread, leWord_leBytes_four]

/-- The bytes UNPACK writes for a word, read back as a frame: R192 makes the two stores exact (R190). -/
theorem readFrame_of_unpackBytes {ibuf m : Memory} {k : Nat} {bs : List Byte} (hbs : unpackBytes ibuf k = some bs)
    (hread : ∀ j, j < 4 → Memory.read m (4 * k + j) = bs[j]?) :
    ∃ w, readPacked ibuf k = some w ∧ readFrame m k = some (unpackWord w) := by
  obtain ⟨w, hword, rfl⟩ := Option.map_eq_some_iff.1 hbs
  obtain ⟨hleft, hright⟩ := unpackWord_fits w
  refine ⟨w, hword, ?_⟩
  generalize unpackWord w = f at hread hleft hright
  refine readFrame_eq_some.2 ⟨readSample_of_bytes hleft fun j hj => ?_,
    readSample_of_bytes hright fun j hj => ?_⟩
  · rw [hread j (by omega), List.getElem?_append_left (by rwa [leBytes_length])]
  · rw [Nat.add_assoc, hread (2 + j) (by omega), List.getElem?_append_right (by rw [leBytes_length]; omega),
      leBytes_length, Nat.add_sub_cancel_left]

/-- Settles O9. -/
theorem packCompletes : Obligations.PackCompletes := by
  intro s hch hready
  obtain ⟨m, hexec, hdone⟩ := pack_shape.exec_of_ready ((channelError_eq_none _).2 hch) hready
  rw [hready.four_mul_frameCount] at hexec
  refine ⟨m, hexec, fun k hk => ?_, fun a ha => hdone.beyond a (hready.four_mul_frameCount.trans_le ha)⟩
  obtain ⟨bs, hbs, hread⟩ := hdone.block k hk
  exact readPacked_of_packBytes hbs hread

/-- Settles O10. -/
theorem unpackCompletes : Obligations.UnpackCompletes := by
  intro s hbits hready
  obtain ⟨m, hexec, hdone⟩ := unpack_shape.exec_of_ready ((bitsError_eq_none _).2 hbits) hready
  rw [hready.four_mul_frameCount] at hexec
  refine ⟨m, hexec, fun k hk => ?_, fun a ha => hdone.beyond a (hready.four_mul_frameCount.trans_le ha)⟩
  obtain ⟨bs, hbs, hread⟩ := hdone.block k hk
  obtain ⟨w, hword, hframe⟩ := readFrame_of_unpackBytes hbs hread
  exact ⟨w, hword, readFrame_eq_some.1 hframe⟩

/-! ## A frame and its bytes -/

/-- A sample fixes its two bytes (spec/20_memory.md R63). -/
theorem read_of_readSample {m : Memory} {a : Nat} {x : Int} (h : readSample m a = some x) {j : Nat} (hj : j < 2) :
    Memory.read m (a + j) = some ((lo16 x).extractLsb' (8 * j) 8) := by
  obtain ⟨w, hw, rfl⟩ := Option.map_eq_some_iff.1 h
  obtain ⟨-, hbytes⟩ := memRead_eq_some (by decide) hw
  rw [hbytes j hj, lo16_s16]
  congr 1
  ext i hi
  have hlow : 8 * j + i < 16 := by omega
  simp [hlow]

/-- Two buffers hold the same frame at `k` exactly when they agree on its four bytes. -/
theorem readFrame_eq_iff {m m' : Memory} {k : Nat} {f : Int × Int} (h : readFrame m k = some f) :
    readFrame m' k = some f ↔ ∀ j, j < 4 → Memory.read m' (4 * k + j) = Memory.read m (4 * k + j) := by
  constructor
  · intro h' j hj
    obtain ⟨hl, hr⟩ := readFrame_eq_some.1 h
    obtain ⟨hl', hr'⟩ := readFrame_eq_some.1 h'
    by_cases hleft : j < 2
    · rw [read_of_readSample hl hleft, read_of_readSample hl' hleft]
    · have hoff : 4 * k + j = 4 * k + 2 + (j - 2) := by omega
      have hright : j - 2 < 2 := by omega
      rw [hoff, read_of_readSample hr hright, read_of_readSample hr' hright]
  · intro hbytes
    rw [readFrame_congr hbytes, h]

/-- What holds of every byte of `n` frames holds frame by frame. -/
theorem forall_lt_iff_frames {P : Nat → Prop} (n : Nat) :
    (∀ a, a < 4 * n → P a) ↔ ∀ k, k < n → ∀ j, j < 4 → P (4 * k + j) := by
  constructor
  · intro h k hk j hj
    exact h _ (by omega)
  · intro h a ha
    rw [← Nat.div_add_mod a 4]
    exact h (a / 4) (by omega) (a % 4) (Nat.mod_lt a (by decide))

/-! ## The stream through PACK and UNPACK -/

/-- An instruction that ends without an error had its precondition met and its payload ready. -/
theorem ready_of_exec_ok {i : Instr} {s t : State} (h : exec i s = .next t) (hok : t.statusErr = 0) :
    preconditionError s.lat i = none ∧ s.PayloadReady := by
  obtain ⟨out, body, ch, bits, shape⟩ := instr_shape i
  rw [shape.exec_eq] at h
  obtain ⟨e, -, hrun⟩ | ⟨-, -, hrun⟩ | ⟨m, hcheck, hframes, hrun⟩ :=
    runOperation_cases i (body s.ibuf) ch bits _ s <;> rw [hrun] at h <;> cases h
  · exact absurd hok (errorCode_bounds e.kind).1
  · obtain ⟨hpre, hrange, hwhole⟩ := (check_eq_none _ _ _).1 hcheck
    refine ⟨hpre, hrange, hwhole, fun a ha => Option.isSome_iff_ne_none.2 fun hunwritten => ?_⟩
    have hnone := (shape.frames_eq_none hwhole).2 ⟨a, ha, hunwritten⟩
    exact Option.some_ne_none m (hframes.symm.trans hnone)

/-- A PACK that ends without an error has left each frame's packed word in OBUF (R180). -/
theorem packed_of_exec_ok {s t : State} (h : exec .pack s = .next t) (hok : t.statusErr = 0) {k : Nat}
    (hk : k < frameCount s) :
    ∃ l r, readFrame s.ibuf k = some (l, r) ∧ readPacked t.obuf k = some (packWord l r) := by
  obtain ⟨hpre, hready⟩ := ready_of_exec_ok h hok
  obtain ⟨m, hexec, hpacked, -⟩ := packCompletes s ((channelError_eq_none _).1 hpre) hready
  rw [h] at hexec
  cases hexec
  exact hpacked k hk

theorem writtenBelow_of_readPacked {m : Memory} {n : Nat} (h : ∀ k, k < n → (readPacked m k).isSome) :
    Memory.WrittenBelow m (4 * n) :=
  (writtenBelow_iff_frames m n).2 fun k hk => (readPacked_isSome m k).1 (h k hk)

/-- UNPACK of a frame's packed word gives its four bytes back exactly when its sum and its difference fit (R194). -/
theorem unpacked_bytes_eq_iff {m ibuf : Memory} {k : Nat} {l r : Int} (hframe : readFrame ibuf k = some (l, r))
    (hunpacked : readFrame m k = some (unpackWord (packWord l r))) :
    (∀ j, j < 4 → Memory.read m (4 * k + j) = Memory.read ibuf (4 * k + j)) ↔
      ∀ l r, readFrame ibuf k = some (l, r) → FitsS16 (l + r) ∧ FitsS16 (l - r) := by
  rw [← readFrame_eq_iff hframe, hunpacked, Option.some_inj, unpackWord_packWord_eq_iff]
  constructor
  · intro hfits l' r' h
    cases hframe.symm.trans h
    exact hfits
  · intro h
    exact h l r hframe

/-- Settles O29: UNPACK finds each frame's packed word, so the stream comes back exactly when each frame does. -/
theorem streamRoundTrip : Obligations.StreamRoundTrip := by
  intro s t u hpack hok hbits hlen hrate hsize hcopy
  obtain ⟨-, hready⟩ := ready_of_exec_ok hpack hok
  have hbytes : 4 * frameCount s = s.lat.len.toNat := hready.four_mul_frameCount
  have hpacked : ∀ k, k < frameCount s →
      ∃ l r, readFrame s.ibuf k = some (l, r) ∧ readPacked u.ibuf k = some (packWord l r) := by
    intro k hk
    obtain ⟨l, r, hframe, hword⟩ := packed_of_exec_ok hpack hok hk
    exact ⟨l, r, hframe, (readPacked_congr fun j hj => hcopy _ (by omega)).trans hword⟩
  have hwritten : Memory.WrittenBelow u.ibuf s.lat.len.toNat := by
    rw [← hbytes]
    refine writtenBelow_of_readPacked fun k hk => ?_
    obtain ⟨l, r, -, hword⟩ := hpacked k hk
    exact Option.isSome_of_eq_some hword
  have hready' : u.PayloadReady := by
    constructor <;> rw [hlen]
    · exact hready.inRange.trans_eq hsize.symm
    · exact hready.wholeFrames
    · exact hwritten
  obtain ⟨m, hexec, hunpacked, -⟩ := unpackCompletes u hbits hready'
  rw [hlen] at hexec hunpacked
  refine ⟨_, hexec, rfl, rfl, hrate, (BitVec.ofNat_toNat _ _).trans (BitVec.setWidth_eq _), rfl, ?_⟩
  rw [← hbytes, forall_lt_iff_frames, hbytes]
  refine forall₂_congr fun k hk => ?_
  obtain ⟨l, r, hframe, hword⟩ := hpacked k hk
  obtain ⟨w, hword', hsamples⟩ := hunpacked k hk
  cases hword.symm.trans hword'
  exact unpacked_bytes_eq_iff hframe (readFrame_eq_some.2 hsamples)

end Sys2Proof.Machine
end

section
/-! SUPPORT. The operation errors of an instruction (spec/60_exceptions.md R223 to R229): when each check fails, what the
instruction then ends with, which codes it can record at all, and the completion step as the spec's Check and dispatch. -/

namespace Sys2Proof.Machine

/-! ## Each check -/

/-- Two channels are the precondition of MONO and PACK (R229). -/
theorem preconditionError_of_ne_unpack {i : Instr} (hi : i ≠ .unpack) (lat : Latches) :
    preconditionError lat i = channelError lat := by
  cases i with
  | unpack => exact absurd rfl hi
  | monoLeft | monoRight | monoSum | monoDiff | pack => rfl

/-- 32 bits are the precondition of UNPACK (R229). -/
theorem preconditionError_unpack (lat : Latches) : preconditionError lat .unpack = bitsError lat := rfl

theorem channelError_of_ne {lat : Latches} (h : lat.ch ≠ 2#16) :
    channelError lat = some ⟨.channelMismatch, lat.ch.setWidth 32, 2⟩ := if_neg h

theorem bitsError_of_ne {lat : Latches} (h : lat.bits ≠ 32#16) :
    bitsError lat = some ⟨.formatBits, lat.bits.setWidth 32, 32⟩ := if_neg h

theorem lengthError_of_tooLong {lat : Latches} {bufBytes : Nat} (h : bufBytes < lat.len.toNat) :
    lengthError lat bufBytes = some ⟨.lengthRange, lat.len, BitVec.ofNat 32 bufBytes⟩ := if_pos h

theorem lengthError_of_partialFrame {lat : Latches} {bufBytes : Nat} (hrange : lat.len.toNat ≤ bufBytes)
    (h : lat.len.toNat % 4 ≠ 0) : lengthError lat bufBytes = some ⟨.formatLength, lat.len, 4⟩ := by
  rw [lengthError, if_neg hrange.not_gt, if_neg h]

/-- Only the payload's length is checked there (R226, R227). -/
theorem lengthError_kind {lat : Latches} {bufBytes : Nat} {e : OpError} (h : lengthError lat bufBytes = some e) :
    e.kind = .lengthRange ∨ e.kind = .formatLength := by
  unfold lengthError at h
  split_ifs at h <;> cases h
  · exact .inl rfl
  · exact .inr rfl

/-- The one kind of error an instruction's precondition raises (R223, R228). -/
def preconditionKind (i : Instr) : ErrorKind := if i = .unpack then .formatBits else .channelMismatch

theorem preconditionKind_of_ne_unpack {i : Instr} (hi : i ≠ .unpack) : preconditionKind i = .channelMismatch :=
  if_neg hi

theorem preconditionError_kind {lat : Latches} {i : Instr} {e : OpError} (h : preconditionError lat i = some e) :
    e.kind = preconditionKind i := by
  by_cases hi : i = .unpack
  · subst hi
    rw [preconditionError_unpack, bitsError] at h
    split_ifs at h
    cases h
    rfl
  · rw [preconditionError_of_ne_unpack hi, channelError] at h
    split_ifs at h
    cases h
    exact (preconditionKind_of_ne_unpack hi).symm

/-! ## The first check that fails -/

/-- The precondition is checked before the length (R229). -/
theorem check_of_preconditionError {i : Instr} {lat : Latches} {e : OpError} (h : preconditionError lat i = some e)
    (bufBytes : Nat) : check i lat bufBytes = some e := by
  rw [check, h, Option.some_or]

theorem check_of_lengthError {i : Instr} {lat : Latches} {bufBytes : Nat} {e : OpError}
    (hpre : preconditionError lat i = none) (h : lengthError lat bufBytes = some e) : check i lat bufBytes = some e := by
  rw [check, hpre, Option.none_or, h]

theorem check_kind {i : Instr} {lat : Latches} {bufBytes : Nat} {e : OpError} (h : check i lat bufBytes = some e) :
    e.kind = preconditionKind i ∨ e.kind = .lengthRange ∨ e.kind = .formatLength := by
  obtain hpre | ⟨-, hlen⟩ := Option.or_eq_some_iff.1 h
  · exact .inl (preconditionError_kind hpre)
  · exact .inr (lengthError_kind hlen)

/-! ## What the instruction ends with -/

/-- A failed check ends the instruction with its record and nothing else changed (R222). -/
theorem exec_of_check_error {i : Instr} {s : State} {e : OpError} (h : check i s.lat s.bufBytes = some e) :
    exec i s = .next (s.failedWith (errorCode e.kind) e.found e.expected) := by
  obtain ⟨out, body, ch, bits, shape⟩ := instr_shape i
  rw [shape.exec_of_error h, State.raiseError_eq_failedWith]

/-- The codes an instruction can leave in STATUS.ERR: success, its precondition's, and the two of the length. -/
theorem exec_statusErr {i : Instr} {s t : State} (h : exec i s = .next t) :
    t.statusErr = 0 ∨ t.statusErr = errorCode (preconditionKind i) ∨ t.statusErr = 6 ∨ t.statusErr = 2 := by
  obtain ⟨out, body, ch, bits, shape⟩ := instr_shape i
  rw [shape.exec_eq] at h
  obtain ⟨e, hcheck, hrun⟩ | ⟨-, -, hrun⟩ | ⟨m, -, -, hrun⟩ :=
    runOperation_cases i (body s.ibuf) ch bits _ s <;> rw [hrun] at h <;> cases h
  · have hcode : (s.raiseError e).statusErr = errorCode e.kind := rfl
    obtain hkind | hkind | hkind := check_kind hcheck <;> rw [hcode, hkind]
    · exact .inr (.inl rfl)
    · exact .inr (.inr (.inl rfl))
    · exact .inr (.inr (.inr rfl))
  · exact .inl rfl

theorem exec_of_not_stereo {i : Instr} {s : State} (hi : i ≠ .unpack) (hch : s.lat.ch ≠ 2#16) :
    exec i s = .next (s.failedWith 3 (s.lat.ch.setWidth 32) 2) :=
  exec_of_check_error
    (check_of_preconditionError ((preconditionError_of_ne_unpack hi _).trans (channelError_of_ne hch)) _)

theorem exec_unpack_of_wrong_bits {s : State} (hbits : s.lat.bits ≠ 32#16) :
    exec .unpack s = .next (s.failedWith 1 (s.lat.bits.setWidth 32) 32) :=
  exec_of_check_error (check_of_preconditionError ((preconditionError_unpack _).trans (bitsError_of_ne hbits)) _)

/-- Settles O12: the channel check fails first, and no code of UNPACK is 3. -/
theorem wrongChannelCountIsChannelMismatch : Obligations.WrongChannelCountIsChannelMismatch := by
  refine ⟨fun i s hi hch => exec_of_not_stereo hi hch, fun s t h => ?_⟩
  obtain hcode | hcode | hcode | hcode := exec_statusErr h <;> rw [hcode] <;> decide

/-- Settles O13: the bits check fails first, and no code of MONO and PACK is 1. -/
theorem wrongBitsIsFormatBits : Obligations.WrongBitsIsFormatBits := by
  refine ⟨fun s hbits => exec_unpack_of_wrong_bits hbits, fun i s t hi h => ?_⟩
  have hcodes := exec_statusErr h
  rw [preconditionKind_of_ne_unpack hi] at hcodes
  obtain hcode | hcode | hcode | hcode := hcodes <;> rw [hcode] <;> decide

/-- Settles O14: with the precondition met the length is checked next, its range first. -/
theorem tooLongIsLengthRange : Obligations.TooLongIsLengthRange := fun _ _ hpre hlen =>
  exec_of_check_error (check_of_lengthError ((preconditionError_eq_none _ _).2 hpre) (lengthError_of_tooLong hlen))

/-- Settles O15: a length in range is checked for whole frames last. -/
theorem partialFrameIsFormatLength : Obligations.PartialFrameIsFormatLength := fun _ _ hpre hrange hlen =>
  exec_of_check_error
    (check_of_lengthError ((preconditionError_eq_none _ _).2 hpre) (lengthError_of_partialFrame hrange hlen))

/-! ## A reserved OP -/

/-- Where the engine moves from holds the same latches. -/
theorem State.EngineMovesFrom.lat_eq {s u : State} (h : s.EngineMovesFrom u) : u.lat = s.lat := by
  rw [h.eq_except_schedule]

/-- OP 3 to 15 is the illegal class of R92. -/
theorem latchedCommand_of_reservedOp {s : State} (hop : 3 ≤ s.lat.op.toNat) : latchedCommand s = .illegal s.lat.op :=
  (decodeFields_eq_illegal_iff _ _ _).2 ⟨by bv_omega, rfl⟩

theorem completionStep_of_illegal {s : State} {op : BitVec 4} (h : latchedCommand s = .illegal op) :
    completionStep s = .next (s.failedWith 5 (op.setWidth 32) 2) := by
  simp only [completionStep, h]
  rfl

/-- Settles O17: the decoder answers the illegal class before any check is made. -/
theorem reservedOpIsIllegalOp : Obligations.ReservedOpIsIllegalOp := by
  intro s u hmoves hop
  rw [← hmoves.lat_eq] at hop ⊢
  rw [step_of_engineMoves hmoves, completionStep_of_illegal (latchedCommand_of_reservedOp hop)]

/-! ## Check, then dispatch -/

/-- The fields of a latched instruction: a legal OP, a legal MODE under MONO, and UNPACK's OP for UNPACK alone (R99). -/
theorem latchedCommand_legal_fields {s : State} {i : Instr} (h : latchedCommand s = .legal i) :
    s.lat.op.toNat ≤ 2 ∧ (s.lat.op = 0#4 → s.lat.mode.toNat ≤ 3) ∧ (i = .unpack ↔ s.lat.op = 2#4) := by
  obtain ⟨hop, hmode⟩ := (decodeFields_eq_legal_iff _ _ _).1 h
  rw [hop] at hmode ⊢
  cases i with
  | monoLeft | monoRight | monoSum | monoDiff => exact ⟨by decide, fun _ => by rw [hmode rfl]; decide, by decide⟩
  | pack | unpack => exact ⟨by decide, fun hop => absurd hop (by decide), by decide⟩

/-- Where none of the spec's checks before the length's fails, the latched instruction's precondition is met. -/
theorem precondition_of_latched {s : State} {i : Instr} (h : latchedCommand s = .legal i)
    (hmonoCh : ¬ (s.lat.op = 0#4 ∧ s.lat.ch ≠ 2#16)) (hpackCh : ¬ (s.lat.op = 1#4 ∧ s.lat.ch ≠ 2#16))
    (hbits : ¬ (s.lat.op = 2#4 ∧ s.lat.bits ≠ 32#16)) :
    if i = .unpack then s.lat.bits = 32#16 else s.lat.ch = 2#16 := by
  obtain ⟨hop, -, hunpack⟩ := latchedCommand_legal_fields h
  split_ifs with hi
  · exact by_contra fun hne => hbits ⟨hunpack.1 hi, hne⟩
  · have hmonoOrPack : s.lat.op = 0#4 ∨ s.lat.op = 1#4 := by
      have : s.lat.op ≠ 2#4 := fun hop => hi (hunpack.2 hop)
      bv_omega
    exact by_contra fun hne => hmonoOrPack.elim (fun h0 => hmonoCh ⟨h0, hne⟩) fun h1 => hpackCh ⟨h1, hne⟩

/-- The spec's dispatch (R126) on LAT.op, and on LAT.mode for MONO, runs the instruction the decoder answers. -/
theorem dispatch_of_latched {s : State} {i : Instr} (h : latchedCommand s = .legal i) :
    (if s.lat.op = 0#4 then
      (if s.lat.mode = 0#8 then exec .monoLeft s
       else if s.lat.mode = 1#8 then exec .monoRight s
       else if s.lat.mode = 2#8 then exec .monoSum s
       else exec .monoDiff s)
     else if s.lat.op = 1#4 then exec .pack s
     else exec .unpack s) = exec i s := by
  obtain ⟨hop, hmode⟩ := (decodeFields_eq_legal_iff _ _ _).1 h
  rw [hop] at hmode ⊢
  cases i with
  | monoLeft | monoRight | monoSum | monoDiff => rw [hmode rfl]; rfl
  | pack | unpack => rfl

/-- Settles O21, by the latched command: an illegal OP and an invalid MODE end as O17 and O16 say, and an instruction's
checks fail in the spec's order or leave its `exec`. -/
theorem completionIsCheckThenDispatch : Obligations.CompletionIsCheckThenDispatch := by
  intro s u hmoves
  cases hcommand : latchedCommand u with
  | illegal op =>
    obtain ⟨hop, rfl⟩ := (decodeFields_eq_illegal_iff _ _ _).1 hcommand
    rw [if_pos (by bv_omega), step_of_engineMoves hmoves, completionStep_of_illegal hcommand]
  | monoInvalid mode =>
    obtain ⟨hop, hmode, rfl⟩ := (decodeFields_eq_monoInvalid_iff _ _ _).1 hcommand
    have hreserved : ¬ 2 < u.lat.op.toNat := by bv_omega
    have hinvalid : 3 < u.lat.mode.toNat := hmode
    rw [invalidModeEndsWithItsError s u hmoves (hmoves.lat_eq ▸ hop) (hmoves.lat_eq ▸ hinvalid), ← hmoves.lat_eq]
    by_cases hch : u.lat.ch = 2#16
    · rw [if_pos hch, if_neg hreserved, if_neg fun h => h.2 hch, if_pos ⟨hop, hinvalid⟩]
    · rw [if_neg hch, if_neg hreserved, if_pos ⟨hop, hch⟩]
  | legal i =>
    obtain ⟨hop, hmode, hunpack⟩ := latchedCommand_legal_fields hcommand
    rw [step_of_engineMoves_legal hmoves hcommand, dispatch_of_latched hcommand]
    split_ifs with hreserved hmonoCh hinvalid hpackCh hbits hlong hpartial
    · omega
    · exact exec_of_not_stereo (fun hi => by simp [hunpack.1 hi] at hmonoCh) hmonoCh.2
    · have := hmode hinvalid.1
      omega
    · exact exec_of_not_stereo (fun hi => by simp [hunpack.1 hi] at hpackCh) hpackCh.2
    · cases hunpack.2 hbits.1
      exact exec_unpack_of_wrong_bits hbits.2
    · exact tooLongIsLengthRange i u (precondition_of_latched hcommand hmonoCh hpackCh hbits) hlong
    · exact partialFrameIsFormatLength i u (precondition_of_latched hcommand hmonoCh hpackCh hbits) (not_lt.1 hlong)
        hpartial
    · rfl

end Sys2Proof.Machine
end

section
/-! SUPPORT. The reset input (spec/70_reset_and_hazards.md R250, R251): the START straight after reset, the block held in
reset, and what its release leaves. -/

namespace Sys2Proof.Machine

/-! ## The START straight after reset -/

/-- A START straight after reset latches zeros, so it runs MONO.LEFT without the two channels that MONO needs
(R251, spec/60_exceptions.md R223); with nothing scheduled the engine completes next (log 1). -/
theorem step_of_reset_acceptStart :
    step State.reset.acceptStart = .next (State.reset.acceptStart.failedWith 3 0 2) := by
  have hmono : latchedCommand State.reset.acceptStart = .legal .monoLeft := rfl
  have hch : State.reset.acceptStart.lat.ch ≠ 2#16 := by decide
  rw [step_of_running rfl rfl rfl, completionStep_of_legal hmono, exec_of_not_stereo (by decide) hch]
  rfl

/-- Settles O47: the reset values are those of `State.reset`, and the START is accepted since the block is idle. -/
theorem resetValues : Obligations.ResetValues := by
  refine ⟨?_, fun a => ⟨rfl, rfl⟩, State.reset.acceptStart, ?_, rfl, step_of_reset_acceptStart⟩
  · and_intros <;> rfl
  · exact acceptedStartLatches State.reset 1 rfl rfl rfl

/-! ## The block held in reset -/

/-- A legal register write while reset is asserted has no effect (R250). -/
theorem hostAccess_wr_of_held {s : State} {off width : Nat} (v : Word) (ho : regAccessOk off width = true)
    (hr : s.inReset = true) : hostAccess (.wr off width v) s = .next s := by
  simp [hostAccess, hostWr, ho, hr]

/-- A legal buffer write while reset is asserted has no effect (R250). -/
theorem hostAccess_wrb_of_held {s : State} {b : Buffer} {a n : Nat} (v : Word)
    (ho : bufAccessOk s.bufBytes a n = true) (hr : s.inReset = true) : hostAccess (.wrb b a n v) s = .next s := by
  simp [hostAccess, hostWrb, ho, hr]

/-- An operation in progress does not complete while reset is asserted (R250). -/
theorem engineTurn_of_held {s : State} (hr : s.inReset = true) : engineTurn s = .next s := by
  simp [engineTurn, engineReady, hr]

/-- Settles O48: each legal access is held, and so is the engine. -/
theorem assertedResetHoldsTheBlock : Obligations.AssertedResetHoldsTheBlock := by
  intro s
  refine ⟨rfl, fun hr => ⟨fun off v hoff hhigh => ?_, fun b a n v hn ha => ?_, engineTurn_of_held hr⟩, fun hr => ?_⟩
  · have ho : regAccessOk off 4 = true := (regAccessOk_iff off 4).2 ⟨rfl, hoff, hhigh⟩
    exact ⟨hostAccess_rd_of_held ho hr, hostAccess_wr_of_held v ho hr⟩
  · have ho : bufAccessOk s.bufBytes a n = true := (bufAccessOk_iff _ _ _).2 ⟨hn, ha⟩
    exact ⟨hostAccess_rdb_of_held ho hr, hostAccess_wrb_of_held v ho hr⟩
  · exact congrArg Host.Outcome.next (releaseReset_of_not_inReset s hr)

/-! ## The release of reset -/

/-- The reset values, with what a release of reset keeps of `s` and `abandoned` bytes of OBUF left without a definite
value (R250, R251; logs 1, 2, 5, 6, 12, 20 and 21). -/
def State.releasedLeaving (s : State) (abandoned : Nat) : State :=
  { State.reset with
    abandonedLen := abandoned, bufBytes := s.bufBytes, hostOps := s.hostOps, schedule := s.schedule, reads := s.reads,
    starts := s.starts, draws := s.draws, epoch := s.epoch + 1 }

theorem releaseReset_eq_releasedLeaving {s : State} (hr : s.inReset = true) :
    releaseReset s = s.releasedLeaving (inProgressLen s) :=
  releaseReset_of_inReset s hr

/-- The result payload of PACK and UNPACK is as long as the payload, that of MONO half as long (spec/10_state.md R35). -/
theorem resultLen_eq (lat : Latches) (i : Instr) :
    resultLen lat i = if i = .pack ∨ i = .unpack then lat.len.toNat else lat.len.toNat / 2 := by
  cases i <;> rfl

theorem inProgressLen_of_idle {s : State} (hb : s.statusBusy = false) : inProgressLen s = 0 := by
  simp [inProgressLen, hb]

/-- An interrupted instruction may have written its result payload if its checks pass, and nothing otherwise (R250,
spec/60_exceptions.md R222). -/
theorem inProgressLen_of_legal {s : State} {i : Instr} (hb : s.statusBusy = true) (h : latchedCommand s = .legal i) :
    inProgressLen s = if check i s.lat s.bufBytes = none then resultLen s.lat i else 0 := by
  cases hcheck : check i s.lat s.bufBytes <;> simp [inProgressLen, hb, h, hcheck]

/-- A command of an illegal class fails, so it writes nothing (R222). -/
theorem inProgressLen_of_not_legal {s : State} (h : ∀ i, latchedCommand s ≠ .legal i) : inProgressLen s = 0 := by
  cases hcommand : latchedCommand s with
  | legal i => exact absurd hcommand (h i)
  | monoInvalid mode | illegal op => simp [inProgressLen, hcommand]

/-- After a release that leaves `abandoned` bytes inside OBUF, these read as the free values of log 21. -/
theorem hostAccess_rdb_obuf_of_released (s : State) {abandoned a n : Nat} (hinside : abandoned ≤ s.bufBytes)
    (hn : n ∈ [1, 2, 4]) (ha : a + n ≤ abandoned) :
    ∃ v : Word, v.toNat < 2 ^ (8 * n) ∧
      (∀ j, j < n → v.extractLsb' (8 * j) 8 = Config.abandonedObuf (s.epoch + 1) (a + j)) ∧
      hostAccess (.rdb .obuf a n) (s.releasedLeaving abandoned) =
        .next { s.releasedLeaving abandoned with reads := s.reads ++ [v] } := by
  obtain ⟨-, hvalued, -⟩ := obufReads (s.releasedLeaving abandoned) a n rfl rfl rfl hn (ha.trans hinside)
  exact hvalued fun j hj => .inr (show a + j < abandoned by omega)

/-- Settles O49: the abandoned bytes are those of the interrupted command, which lie inside OBUF. -/
theorem releasedResetRestoresResetValues : Obligations.ReleasedResetRestoresResetValues := by
  intro s hr
  refine ⟨s.releasedLeaving (inProgressLen s), congrArg Host.Outcome.next (releaseReset_eq_releasedLeaving hr),
    congrArg s.releasedLeaving ?_, fun a n hn ha => hostAccess_rdb_obuf_of_released s (inProgressLen_le s) hn ha⟩
  split_ifs with hb
  · cases hcommand : latchedCommand s with
    | legal i => rw [inProgressLen_of_legal hb hcommand, resultLen_eq]
    | monoInvalid mode | illegal op => exact inProgressLen_of_not_legal fun i h => nomatch hcommand.symm.trans h
  · exact inProgressLen_of_idle (by simpa using hb)

end Sys2Proof.Machine
end
